-- ==== Sys2Proof/Word.lean ====
section
/-! DEFINITION. The words of the block: bytes, 16-bit registers, 28-bit request words, 10-bit port addresses. -/

namespace Sys2Proof

/-- One byte of FBUF or of a frame (10_state.md R23). -/
abbrev Byte := BitVec 8

/-- One 16-bit register, command word or response word (10_state.md R25, 30_encoding.md R80, R84). -/
abbrev Half := BitVec 16

/-- One 28-bit request word (30_encoding.md R80). -/
abbrev Request := BitVec 28

/-- The 10-bit address field of a request word (30_encoding.md R80). -/
abbrev PortAddr := BitVec 10

end Sys2Proof
end

