-- ==== Sys2Proof/Config.lean ====
section
/-! DEFINITION. The parameters of 00_scope.md R6, each a named constant, at this hardware's values.
LATENCY has no constant: it is left free as the position of the engine's turn in `State.inputs`
(notes/assumptions/2.md). -/

namespace Sys2Proof

/-- The two legal values of the parameter ENDIAN (00_scope.md R6, 20_memory.md R64). -/
inductive Endian where
  | big
  | little
deriving DecidableEq, Repr

/-- The build parameters a corrected value may be substituted for (00_scope.md R7, 20_memory.md R64). -/
structure Params where
  endian : Endian
  tagData : Byte
  tagAck : Byte
deriving DecidableEq, Repr

namespace Config

/-- HEADER, 6 bytes (00_scope.md R6). -/
def header : Nat := 6

/-- PAYLOAD_MAX, 1000 bytes (00_scope.md R6). -/
def payloadMax : Nat := 1000

/-- FRAME_MAX = HEADER + PAYLOAD_MAX (00_scope.md R6). -/
def frameMax : Nat := header + payloadMax

/-- FBUF_SIZE = FRAME_MAX (00_scope.md R6). -/
def fbufSize : Nat := frameMax

/-- TAG_DATA, 12 (00_scope.md R6, 30_encoding.md R96). -/
def tagData : Byte := 12

/-- TAG_ACK, 11 (00_scope.md R6, 30_encoding.md R96). -/
def tagAck : Byte := 11

/-- ENDIAN, BIG for this hardware (00_scope.md R6, 20_memory.md R64). -/
def endian : Endian := .big

/-- SEQ_BITS (00_scope.md R6). -/
def seqBits : Nat := 8

/-- REG_BITS (00_scope.md R6). -/
def regBits : Nat := 16

/-- NREGS: 16 register numbers, 12 of them defined (00_scope.md R6). -/
def nregs : Nat := 16

/-- ADDR_BITS (00_scope.md R6). -/
def addrBits : Nat := 10

/-- This hardware's build parameters. -/
def params : Params := { endian := endian, tagData := tagData, tagAck := tagAck }

/-- The name this spec gives the block (00_scope.md R2). The block has no identification register. -/
def name : String := "RDT Packet Codec"

/-- The ISA string this spec gives the block (00_scope.md R2). -/
def isaString : String := "RDTPKC-v1"

end Config

end Sys2Proof
end

