-- ==== Sys2Proof/Machine/State.lean ====
section
/-! DEFINITION. The state of the block (10_state.md R22), the two fields of the model's own beside it, and the state
after reset (70_reset_and_hazards.md R213). -/

namespace Sys2Proof.Machine

/-- The 12 defined registers (10_state.md R25). -/
inductive Reg where
  | cmd
  | status
  | inKind
  | inSeq
  | inPlen
  | inFlen
  | outKind
  | outSeq
  | outCsum
  | outLen
  | outFlen
  | outPlen
deriving DecidableEq, Repr

/-- The register file: 12 registers of 16 bits (10_state.md R25). -/
structure RegFile where
  cmd : Half
  status : Half
  inKind : Half
  inSeq : Half
  inPlen : Half
  inFlen : Half
  outKind : Half
  outSeq : Half
  outCsum : Half
  outLen : Half
  outFlen : Half
  outPlen : Half
deriving DecidableEq, Repr

/-- The written cells of FBUF, indices rising; an index that is not listed is UNWRITTEN (10_state.md R24,
notes/assumptions/5.md). -/
abbrev Memory := List Host.Cell

/-- The model faults (60_exceptions.md R190). -/
inductive Fault where
  /-- UNINIT_READ (R191): raised by RDB, CKSUM, VERIFY, ENCODE and DECODE when they read an UNWRITTEN cell. Safe. -/
  | uninitRead
  /-- HAZARD_BUSY_ACCESS (R192): raised by RDR, WRR, RDB and WRB while STATUS.BUSY = 1, but for RDR STATUS. Safe. -/
  | hazardBusyAccess
deriving DecidableEq, Repr

/-- The refusals. -/
inductive Refusal where
  /-- An instruction with no meaning yet, by its mnemonic: no arm of `exec` raises it. Safe. -/
  | notModelled (mnemonic : String)
deriving DecidableEq, Repr

/-- What can happen next (60_exceptions.md R197: at most one of these in a step). -/
inductive Event where
  /-- The host drives one request word on the port (30_encoding.md R80). -/
  | request (w : Request)
  /-- The engine takes its turn (30_encoding.md R87). -/
  | engine
  /-- The `rst` input is asserted (70_reset_and_hazards.md R210). -/
  | rst
deriving DecidableEq, Repr

/-- The state of the block and its port. The first four fields are the spec's tuple (10_state.md R22); `inputs` and
`rdata` are the model's own (notes/assumptions/1.md, 4.md). -/
structure State where
  /-- The 12 defined registers (10_state.md R25). -/
  regs : RegFile
  /-- The written cells of FBUF (10_state.md R23, R24). -/
  fbuf : Memory
  /-- A command is issued and not yet performed (10_state.md R48). -/
  pending : Bool
  /-- The recorded model fault (60_exceptions.md R190). -/
  fault : Option Fault
  /-- What the outside world does next, in order: DESIGN CHOICE, notes/assumptions/1.md. -/
  inputs : List Event
  /-- The response word of the last host transaction, if it gives one (30_encoding.md R80, R81): DESIGN CHOICE,
  notes/assumptions/4.md. -/
  rdata : Option Half
deriving DecidableEq, Repr

/-- Every register after reset (70_reset_and_hazards.md R213). -/
def RegFile.reset : RegFile where
  cmd := 0x0000
  status := 0x0000
  inKind := 0x0000
  inSeq := 0x0000
  inPlen := 0x0000
  inFlen := 0x0000
  outKind := 0x0000
  outSeq := 0x0000
  outCsum := 0x0000
  outLen := 0x0000
  outFlen := 0x0000
  outPlen := 0x0000

/-- The block right after reset (70_reset_and_hazards.md R213), no model fault recorded (R214), and nothing placed on
its port. -/
def State.reset : State where
  regs := RegFile.reset
  fbuf := []
  pending := false
  fault := none
  inputs := []
  rdata := none

end Sys2Proof.Machine
end

