-- ==== Sys2Proof/Machine/Flags.lean ====
section
/-! DEFINITION. STATUS: its fields (10_state.md R30), the error codes (60_exceptions.md R181), the words written at
issue and at completion (10_state.md R31), and the flags DECODE computes (10_state.md R36 to R39). -/

namespace Sys2Proof.Machine

/-- The error codes a command can complete with (60_exceptions.md R181). -/
inductive ErrCode where
  | none
  | badCmd
  | range
  | short
  | badKind
  | ackPayload
deriving DecidableEq, Repr

/-- The 4-bit code of STATUS.ERR (60_exceptions.md R181). -/
def errValue : ErrCode → BitVec 4
  | .none => 0
  | .badCmd => 1
  | .range => 2
  | .short => 3
  | .badKind => 4
  | .ackPayload => 5

/-- The five one-bit results `complete` writes beside the error code (10_state.md R31). -/
structure CompletionFlags where
  valid : Bool
  fKind : Bool
  fLen : Bool
  fOver : Bool
  fAck : Bool
deriving DecidableEq, Repr

/-- All five 0: what every completion writes unless its command's rule sets one (10_state.md R31). -/
def noFlags : CompletionFlags :=
  { valid := false, fKind := false, fLen := false, fOver := false, fAck := false }

/-- STATUS.BUSY, bit 0 (10_state.md R30). -/
def State.busy (s : State) : Bool := s.regs.status.getLsbD 0

/-- STATUS.DONE, bit 1 (10_state.md R30). -/
def State.done (s : State) : Bool := s.regs.status.getLsbD 1

/-- STATUS.VALID, bit 2 (10_state.md R30). -/
def State.valid (s : State) : Bool := s.regs.status.getLsbD 2

/-- STATUS.ERR, bits [7:4] (10_state.md R30). -/
def State.err (s : State) : BitVec 4 := s.regs.status.extractLsb' 4 4

/-- STATUS.F_KIND, bit 8 (10_state.md R30). -/
def State.fKind (s : State) : Bool := s.regs.status.getLsbD 8

/-- STATUS.F_LEN, bit 9 (10_state.md R30). -/
def State.fLen (s : State) : Bool := s.regs.status.getLsbD 9

/-- STATUS.F_OVER, bit 10 (10_state.md R30). -/
def State.fOver (s : State) : Bool := s.regs.status.getLsbD 10

/-- STATUS.F_ACK, bit 11 (10_state.md R30). -/
def State.fAck (s : State) : Bool := s.regs.status.getLsbD 11

/-- STATUS at issue: BUSY = 1, every other field 0 (10_state.md R31). -/
def issueStatus : Half := 0x0001

/-- STATUS at completion, written whole: BUSY = 0, DONE = 1, the code and the flags, the reserved bits 0
(10_state.md R30, R31, notes/assumptions/9.md). -/
def completionStatus (code : ErrCode) (f : CompletionFlags) : Half :=
  0#4 ++ BitVec.ofBool f.fAck ++ BitVec.ofBool f.fOver ++ BitVec.ofBool f.fLen ++ BitVec.ofBool f.fKind
    ++ errValue code ++ 0#1 ++ BitVec.ofBool f.valid ++ 1#1 ++ 0#1

/-- The flags of a DECODE without error, from header byte 0, the decoded length field and IN_FLEN
(10_state.md R36 to R39, 41_framing.md R141). -/
def decodeFlags (p : Params) (kind : Byte) (len flen : Nat) : CompletionFlags where
  valid := false
  fKind := kind != p.tagData && kind != p.tagAck
  fLen := len != flen - Config.header
  fOver := decide (Config.payloadMax < len)
  fAck := kind == p.tagAck && (len != 0 || flen != Config.header)

end Sys2Proof.Machine
end

