-- ==== Sys2Proof/Machine/Ops.lean ====
section
/-! DEFINITION. The named operations every meaning is written over: registers, FBUF, byte order, the issue and the
completion of a command, the raising of an error (what this block has in place of an exception, 60_exceptions.md R180,
R196), the recording of a model fault, and reset. -/

namespace Sys2Proof.Machine

/-- What a meaning or a step answers. -/
abbrev Result := Host.Outcome State Fault Refusal

/-! ### Registers -/

/-- The stored value of a register (00_scope.md R9, `reg[r]`). -/
def RegFile.get (f : RegFile) : Reg → Half
  | .cmd => f.cmd
  | .status => f.status
  | .inKind => f.inKind
  | .inSeq => f.inSeq
  | .inPlen => f.inPlen
  | .inFlen => f.inFlen
  | .outKind => f.outKind
  | .outSeq => f.outSeq
  | .outCsum => f.outCsum
  | .outLen => f.outLen
  | .outFlen => f.outFlen
  | .outPlen => f.outPlen

/-- The register file with one register stored (00_scope.md R9, `reg[r] <- v`). -/
def RegFile.set (f : RegFile) (r : Reg) (v : Half) : RegFile :=
  match r with
  | .cmd => { f with cmd := v }
  | .status => { f with status := v }
  | .inKind => { f with inKind := v }
  | .inSeq => { f with inSeq := v }
  | .inPlen => { f with inPlen := v }
  | .inFlen => { f with inFlen := v }
  | .outKind => { f with outKind := v }
  | .outSeq => { f with outSeq := v }
  | .outCsum => { f with outCsum := v }
  | .outLen => { f with outLen := v }
  | .outFlen => { f with outFlen := v }
  | .outPlen => { f with outPlen := v }

/-- The used bits of a register (10_state.md R25, R30): the others read 0 and ignore writes (R26). -/
def usedBits : Reg → Half
  | .cmd => 0xFFFF
  | .status => 0x0FF7
  | .inKind => 0x00FF
  | .inSeq => 0x00FF
  | .inPlen => 0xFFFF
  | .inFlen => 0xFFFF
  | .outKind => 0x00FF
  | .outSeq => 0x00FF
  | .outCsum => 0xFFFF
  | .outLen => 0xFFFF
  | .outFlen => 0xFFFF
  | .outPlen => 0xFFFF

/-- What a read of a register returns: the used bits, the others 0 (10_state.md R26, 42_host_access.md R162). -/
def State.readReg (s : State) (r : Reg) : Half := s.regs.get r &&& usedBits r

/-- Store the used bits of a value in a register (10_state.md R26). -/
def State.writeReg (s : State) (r : Reg) (v : Half) : State :=
  { s with regs := s.regs.set r (v &&& usedBits r) }

/-! ### FBUF -/

/-- One cell of FBUF: a byte, or none when it is UNWRITTEN (10_state.md R24). -/
def Memory.read : Memory → Nat → Option Byte
  | [], _ => none
  | (a, b) :: m, i => if a = i then some b else Memory.read m i

/-- Make one cell of FBUF a byte, the list kept rising (10_state.md R24, 00_scope.md R9 `FBUF[i] <- b`). -/
def Memory.write : Memory → Nat → Byte → Memory
  | [], i, b => [(i, b)]
  | (a, c) :: m, i, b =>
    if i < a then (i, b) :: (a, c) :: m
    else if i = a then (i, b) :: m
    else (a, c) :: Memory.write m i b

/-- Every listed index is above `lo` and the indices strictly rise. -/
def Memory.risingFrom : Memory → Nat → Bool
  | [], _ => true
  | (a, _) :: m, lo => decide (lo ≤ a) && Memory.risingFrom m (a + 1)

/-- The canonical form: indices strictly rising and inside FBUF (10_state.md R23). An unlisted index is UNWRITTEN, so no
entry can equal what it reads as. -/
def Memory.wf (m : Memory) : Bool :=
  Memory.risingFrom m 0 && m.all fun c => decide (c.1 < Config.fbufSize)

/-- MemRead(i, n): the bytes `FBUF[i..i+n-1]`, none if any of them is UNWRITTEN (00_scope.md R9). -/
def Memory.readRange (m : Memory) (i : Nat) : Nat → Option (List Byte)
  | 0 => some []
  | n + 1 =>
    match m.read i, Memory.readRange m (i + 1) n with
    | some b, some bs => some (b :: bs)
    | _, _ => none

/-- MemWrite(i, n, B): `FBUF[i+k] <- B[k]` for every k (00_scope.md R9). -/
def Memory.writeRange (m : Memory) (i : Nat) : List Byte → Memory
  | [] => m
  | b :: bs => Memory.writeRange (m.write i b) (i + 1) bs

/-! ### Byte order -/

/-- put16(v): the two bytes of a 16-bit value in byte order (00_scope.md R9). -/
def put16 : Endian → Half → List Byte
  | .big, v => [v.extractLsb' 8 8, v.extractLsb' 0 8]
  | .little, v => [v.extractLsb' 0 8, v.extractLsb' 8 8]

/-- get16(b0, b1), the inverse of put16 (00_scope.md R9). -/
def get16 : Endian → Byte → Byte → Half
  | .big, b0, b1 => b0 ++ b1
  | .little, b0, b1 => b1 ++ b0

/-! ### Issue, completion, error, fault, reset -/

/-- Issue a command: CMD holds the word as written, STATUS is BUSY alone, the command is pending
(30_encoding.md R86, 10_state.md R31). -/
def issue (v : Half) (s : State) : State :=
  { s with regs := (s.regs.set .cmd v).set .status issueStatus, pending := true }

/-- complete(code) with the flags: STATUS is written and nothing is pending (10_state.md R31, R48). -/
def complete (code : ErrCode) (f : CompletionFlags) (s : State) : State :=
  { s with regs := s.regs.set .status (completionStatus code f), pending := false }

/-- raise Error(code): complete with the code and every flag 0, and write nothing else (60_exceptions.md R182). -/
def raiseError (code : ErrCode) (s : State) : State := complete code noFlags s

/-- Mark the state as faulted, with the reason (60_exceptions.md R190). The transaction gives no response
(notes/assumptions/3.md). -/
def recordFault (r : Fault) (s : State) : State := { s with fault := some r, rdata := none }

/-- The response word of a read, or none for a write (30_encoding.md R81). -/
def respond (v : Option Half) (s : State) : State := { s with rdata := v }

/-- `rst`: every register 0, nothing pending, every FBUF cell UNWRITTEN; a recorded fault is kept
(70_reset_and_hazards.md R210). What the host does after it stays queued (notes/assumptions/12.md). -/
def applyReset (s : State) : State :=
  { regs := RegFile.reset, fbuf := [], pending := false, fault := s.fault, inputs := s.inputs, rdata := none }

end Sys2Proof.Machine
end

