-- ==== Sys2Proof/Machine/Operands.lean ====
section
/-! DEFINITION. The operand forms: the port's register and buffer addresses (30_encoding.md R82, R83) and the operands
the commands take from registers and FBUF (R93). -/

namespace Sys2Proof.Machine

/-- The register of a register number, none for 12 to 15 (10_state.md R25, R47). -/
def regOfNumber : Nat → Option Reg
  | 0 => some .cmd
  | 1 => some .status
  | 2 => some .inKind
  | 3 => some .inSeq
  | 4 => some .inPlen
  | 5 => some .inFlen
  | 6 => some .outKind
  | 7 => some .outSeq
  | 8 => some .outCsum
  | 9 => some .outLen
  | 10 => some .outFlen
  | 11 => some .outPlen
  | _ => none

/-- The register number of a register (10_state.md R25). -/
def regNumber : Reg → Nat
  | .cmd => 0
  | .status => 1
  | .inKind => 2
  | .inSeq => 3
  | .inPlen => 4
  | .inFlen => 5
  | .outKind => 6
  | .outSeq => 7
  | .outCsum => 8
  | .outLen => 9
  | .outFlen => 10
  | .outPlen => 11

/-- The port address of a register (30_encoding.md R82). -/
def regAddr (r : Reg) : PortAddr := BitVec.ofNat 10 (regNumber r)

/-- Register-space decode: with ADDR[9:4] = 0 the register of number ADDR[3:0], otherwise reserved
(30_encoding.md R82). -/
def regOperand (a : PortAddr) : Option Reg :=
  if a.extractLsb' 4 6 = 0 then regOfNumber (a.extractLsb' 0 4).toNat else none

/-- Buffer-space decode: an address below 1006 is the FBUF index, the others are outside FBUF (30_encoding.md R83). -/
def fbufOperand (i : PortAddr) : Option Nat :=
  if i.toNat < Config.frameMax then some i.toNat else none

/-- IN_KIND[7:0] (30_encoding.md R93). -/
def opKind (s : State) : Byte := (s.readReg .inKind).extractLsb' 0 8

/-- IN_SEQ[7:0] (30_encoding.md R93). -/
def opSeq (s : State) : Byte := (s.readReg .inSeq).extractLsb' 0 8

/-- IN_PLEN, 16 bits (30_encoding.md R93). -/
def opPlen (s : State) : Half := s.readReg .inPlen

/-- IN_FLEN, 16 bits (30_encoding.md R93). -/
def opFlen (s : State) : Half := s.readReg .inFlen

/-- The frame bytes `FBUF[0..IN_FLEN-1]` of CKSUM and VERIFY (30_encoding.md R93). -/
def frameBytes (s : State) : Option (List Byte) := s.fbuf.readRange 0 (opFlen s).toNat

/-- The payload bytes `FBUF[6..5+IN_PLEN]` of ENCODE (30_encoding.md R93). -/
def payloadBytes (s : State) : Option (List Byte) := s.fbuf.readRange Config.header (opPlen s).toNat

/-- The header bytes `FBUF[0..5]` of DECODE (30_encoding.md R93). -/
def headerBytes (s : State) : Option (List Byte) := s.fbuf.readRange 0 Config.header

end Sys2Proof.Machine
end

