-- ==== Sys2Proof/Machine/Checksum.lean ====
section
/-! DEFINITION. The Internet checksum (40_checksum.md R110 to R118) and the commands CKSUM (R119) and VERIFY (R121). -/

namespace Sys2Proof.Machine

/-- The 16-bit words of a byte sequence in byte order; an odd last byte is padded with one zero byte, conceptually
(40_checksum.md R110). -/
def words (e : Endian) : List Byte → List Half
  | [] => []
  | [b] => [get16 e b 0]
  | b0 :: b1 :: bs => get16 e b0 b1 :: words e bs

/-- S, the sum of the words as a natural number, with no overflow (40_checksum.md R111, R117). -/
def wordSum : List Half → Nat
  | [] => 0
  | w :: ws => w.toNat + wordSum ws

/-- At most `n` rounds of end-around carry (40_checksum.md R111). -/
def foldRounds : Nat → Nat → Nat
  | 0, S => S
  | n + 1, S => if 0xFFFF < S then foldRounds n (S % 0x10000 + S / 0x10000) else S

/-- fold(S): add the carries back in while S > 0xFFFF (40_checksum.md R111). A round strictly decreases S while S > 0xFFFF
(R113), so S rounds are always enough. -/
def fold (S : Nat) : Nat := foldRounds S S

/-- Checksum(B) = 0xFFFF - fold(S), 16 bits (40_checksum.md R112). -/
def checksum (e : Endian) (B : List Byte) : Half := ~~~(BitVec.ofNat 16 (fold (wordSum (words e B))))

/-- The per-word end-around-carry accumulation (40_checksum.md R114). The meanings use `checksum`; that the two agree is
a statement about this model. -/
def accumulate : Nat → List Half → Nat
  | acc, [] => acc
  | acc, w :: ws =>
    accumulate (if 0xFFFF < acc + w.toNat then acc + w.toNat - 0xFFFF else acc + w.toNat) ws

/-- The two bytes of a 16-bit value exchanged (40_checksum.md R118). -/
def swap16 (x : Half) : Half := x.extractLsb' 0 8 ++ x.extractLsb' 8 8

/-- CKSUM in a given byte order (40_checksum.md R119). -/
def cksumIn (e : Endian) (s : State) : Result :=
  if Config.frameMax < (opFlen s).toNat then .next (raiseError .range s)
  else
    match frameBytes s with
    | none => .fault .uninitRead
    | some B => .next (complete .none noFlags (s.writeReg .outCsum (checksum e B)))

/-- VERIFY in a given byte order (40_checksum.md R121). -/
def verifyIn (e : Endian) (s : State) : Result :=
  if Config.frameMax < (opFlen s).toNat then .next (raiseError .range s)
  else
    match frameBytes s with
    | none => .fault .uninitRead
    | some B =>
      .next (complete .none { noFlags with valid := checksum e B == 0 } (s.writeReg .outCsum (checksum e B)))

/-- CKSUM (40_checksum.md R119). -/
def execCksum (s : State) : Result := cksumIn Config.params.endian s

/-- VERIFY (40_checksum.md R121). -/
def execVerify (s : State) : Result := verifyIn Config.params.endian s

end Sys2Proof.Machine
end

