-- ==== Sys2Proof/Machine/Framing.lean ====
section
/-! DEFINITION. The frame header (41_framing.md R130, 30_encoding.md R95), the commands ENCODE (R134), DECODE (R141) and
NOP (R150), and the reserved command words (30_encoding.md R89, R91). -/

namespace Sys2Proof.Machine

/-- Header(k, s, C, L) = [k, s] ++ put16(C) ++ put16(L), 6 bytes (41_framing.md R130). -/
def frameHeader (e : Endian) (kind seq : Byte) (csum len : Half) : List Byte :=
  [kind, seq] ++ put16 e csum ++ put16 e len

/-- The checksum ENCODE places: over the header with its checksum field zero, then the payload
(41_framing.md R130, 30_encoding.md R98). -/
def frameChecksum (e : Endian) (kind seq : Byte) (len : Half) (payload : List Byte) : Half :=
  checksum e (frameHeader e kind seq 0x0000 len ++ payload)

/-- The frame of a kind, a sequence number and a payload (30_encoding.md R94, R95). -/
def frameOf (e : Endian) (kind seq : Byte) (len : Half) (payload : List Byte) : List Byte :=
  frameHeader e kind seq (frameChecksum e kind seq len payload) len ++ payload

/-- The error ENCODE reports, in its order of precedence (41_framing.md R132, R133, 60_exceptions.md R184). -/
def encodeError (p : Params) (kind : Byte) (len : Nat) : ErrCode :=
  if Config.payloadMax < len then .range
  else if kind ≠ p.tagData ∧ kind ≠ p.tagAck then .badKind
  else if kind = p.tagAck ∧ len ≠ 0 then .ackPayload
  else .none

/-- What ENCODE writes once its payload is read: the header in `FBUF[0..5]`, OUT_CSUM, OUT_LEN and OUT_FLEN
(41_framing.md R134). -/
def writeFrame (e : Endian) (payload : List Byte) (s : State) : State :=
  let c := frameChecksum e (opKind s) (opSeq s) (opPlen s) payload
  let t := { s with fbuf := s.fbuf.writeRange 0 (frameHeader e (opKind s) (opSeq s) c (opPlen s)) }
  ((t.writeReg .outCsum c).writeReg .outLen (opPlen s)).writeReg .outFlen
    (BitVec.ofNat 16 (Config.header + (opPlen s).toNat))

/-- ENCODE with given build parameters (41_framing.md R134). -/
def encodeIn (p : Params) (s : State) : Result :=
  match encodeError p (opKind s) (opPlen s).toNat with
  | .none =>
    match payloadBytes s with
    | none => .fault .uninitRead
    | some P => .next (complete .none noFlags (writeFrame p.endian P s))
  | code => .next (raiseError code s)

/-- What DECODE writes from the six header bytes: OUT_KIND, OUT_SEQ, OUT_CSUM, OUT_LEN and OUT_PLEN, and the flags
(41_framing.md R141). -/
def parseHeader (p : Params) (k q c0 c1 l0 l1 : Byte) (s : State) : State :=
  let n := (opFlen s).toNat
  let len := get16 p.endian l0 l1
  let t := (((((s.writeReg .outKind (k.setWidth 16)).writeReg .outSeq (q.setWidth 16)).writeReg .outCsum
    (get16 p.endian c0 c1)).writeReg .outLen len).writeReg .outPlen (BitVec.ofNat 16 (n - Config.header)))
  complete .none (decodeFlags p k len.toNat n) t

/-- The error DECODE reports (41_framing.md R140). -/
def decodeError (flen : Nat) : ErrCode :=
  if Config.frameMax < flen then .range else if flen < Config.header then .short else .none

/-- DECODE with given build parameters (41_framing.md R141). -/
def decodeIn (p : Params) (s : State) : Result :=
  match decodeError (opFlen s).toNat with
  | .none =>
    match headerBytes s with
    | some [k, q, c0, c1, l0, l1] => .next (parseHeader p k q c0 c1 l0 l1 s)
    | _ => .fault .uninitRead
  | code => .next (raiseError code s)

/-- NOP (41_framing.md R150). -/
def execNop (s : State) : Result := .next (complete .none noFlags s)

/-- ENCODE (41_framing.md R134). -/
def execEncode (s : State) : Result := encodeIn Config.params s

/-- DECODE (41_framing.md R141). -/
def execDecode (s : State) : Result := decodeIn Config.params s

/-- A reserved command word, whatever its OP and RSVD (30_encoding.md R89, R91): BAD_CMD, and nothing but STATUS is
written (60_exceptions.md R182). -/
def execBadCmd (s : State) : Result := .next (raiseError .badCmd s)

/-- The frames the codec produces (30_encoding.md R94, R96, R99): 6 to 1006 bytes, a kind tag first, a length field equal
to the number of payload bytes, and no payload in an ACK. -/
def isFrame (p : Params) : List Byte → Bool
  | k :: _ :: _ :: _ :: l0 :: l1 :: payload =>
    (k == p.tagData || k == p.tagAck)
      && (get16 p.endian l0 l1).toNat == payload.length
      && decide (payload.length ≤ Config.payloadMax)
      && (k != p.tagAck || payload.length == 0)
  | _ => false

end Sys2Proof.Machine
end

