-- ==== Sys2Proof/Machine/Port.lean ====
section
/-! DEFINITION. The host's port transactions RDR, WRR, RDB and WRB (42_host_access.md R162 to R165). -/

namespace Sys2Proof.Machine

/-- What a register read at a port address returns: 0 at a reserved one (42_host_access.md R162). -/
def registerResponse (a : PortAddr) (s : State) : Half :=
  match regOperand a with
  | some r => s.readReg r
  | none => 0x0000

/-- The effect of a register write while BUSY = 0, by what the address names: CMD issues, the IN_ registers store their
used bits, STATUS, the OUT_ registers and the reserved addresses ignore it (42_host_access.md R163). -/
def registerWrite (a : PortAddr) (v : Half) (s : State) : State :=
  match regOperand a with
  | some .cmd => issue v s
  | some .inKind => s.writeReg .inKind v
  | some .inSeq => s.writeReg .inSeq v
  | some .inPlen => s.writeReg .inPlen v
  | some .inFlen => s.writeReg .inFlen v
  | some .status => s
  | some .outKind => s
  | some .outSeq => s
  | some .outCsum => s
  | some .outLen => s
  | some .outFlen => s
  | some .outPlen => s
  | none => s

/-- RDR (42_host_access.md R162). -/
def execRdr (a : PortAddr) (s : State) : Result :=
  if s.busy ∧ regOperand a ≠ some .status then .fault .hazardBusyAccess
  else .next (respond (some (registerResponse a s)) s)

/-- WRR (42_host_access.md R163). -/
def execWrr (a : PortAddr) (v : Half) (s : State) : Result :=
  if s.busy then .fault .hazardBusyAccess
  else .next (respond none (registerWrite a v s))

/-- RDB (42_host_access.md R164). -/
def execRdb (i : PortAddr) (s : State) : Result :=
  if s.busy then .fault .hazardBusyAccess
  else
    match fbufOperand i with
    | none => .next (respond (some 0x0000) s)
    | some k =>
      match s.fbuf.read k with
      | none => .fault .uninitRead
      | some b => .next (respond (some (b.setWidth 16)) s)

/-- WRB (42_host_access.md R165, R166). -/
def execWrb (i : PortAddr) (b : Byte) (s : State) : Result :=
  if s.busy then .fault .hazardBusyAccess
  else
    match fbufOperand i with
    | none => .next (respond none s)
    | some k => .next (respond none { s with fbuf := s.fbuf.write k b })

end Sys2Proof.Machine
end

