-- ==== Sys2Proof/Syntax.lean ====
section
/-! DEFINITION. The instructions of spec/opcode_table.json: the host's four port transactions (30_encoding.md R81)
and the engine's command words (R85), the reserved row among them (R89, R91). -/

namespace Sys2Proof

/-- One constructor per row of spec/opcode_table.json. A field the encoding ignores (the WDATA of a read, the upper
WDATA byte of a buffer write, R81) is no operand. -/
inductive Instr where
  /-- RDR: register read (42_host_access.md R162). -/
  | rdr (addr : PortAddr)
  /-- WRR: register write (42_host_access.md R163). -/
  | wrr (addr : PortAddr) (value : Half)
  /-- RDB: buffer read (42_host_access.md R164). -/
  | rdb (index : PortAddr)
  /-- WRB: buffer write (42_host_access.md R165). -/
  | wrb (index : PortAddr) (byte : Byte)
  /-- NOP, command 0 (41_framing.md R150). -/
  | nop
  /-- CKSUM, command 1 (40_checksum.md R119). -/
  | cksum
  /-- VERIFY, command 2 (40_checksum.md R121). -/
  | verify
  /-- ENCODE, command 3 (41_framing.md R134). -/
  | encode
  /-- DECODE, command 4 (41_framing.md R141). -/
  | decode
  /-- The reserved row: a command word with OP in 5..7 or a nonzero RSVD field (30_encoding.md R89, R91). -/
  | badCmd (op : BitVec 3) (rsvd : BitVec 13)
deriving DecidableEq, Repr

/-- An encoded instruction: a 28-bit request word of the host port (30_encoding.md R80), or a 16-bit command word in
CMD (30_encoding.md R84). No other form exists (R92). -/
inductive Encoded where
  | request (w : Request)
  | command (v : Half)
deriving DecidableEq, Repr

end Sys2Proof
end

