-- ==== Sys2Proof/Machine/Dispatch.lean ====
section
/-! DEFINITION. One arm per instruction: the meaning it is given. -/

namespace Sys2Proof.Machine

def exec (i : Instr) (s : State) : Host.Outcome State Fault Refusal :=
  match i with
  -- the host's port transactions
  | .rdr addr => Sys2Proof.Machine.execRdr addr s
  | .wrr addr value => Sys2Proof.Machine.execWrr addr value s
  | .rdb index => Sys2Proof.Machine.execRdb index s
  | .wrb index byte => Sys2Proof.Machine.execWrb index byte s
  -- the engine's commands
  | .nop => Sys2Proof.Machine.execNop s
  | .cksum => Sys2Proof.Machine.execCksum s
  | .verify => Sys2Proof.Machine.execVerify s
  | .encode => Sys2Proof.Machine.execEncode s
  | .decode => Sys2Proof.Machine.execDecode s
  | .badCmd _ _ => Sys2Proof.Machine.execBadCmd s

end Sys2Proof.Machine
end

