-- ==== Sys2Proof/WellFormed.lean ====
section
/-! DEFINITION. Which instruction terms stand for an encoding. Every operand of a transaction is as wide as its field,
so the one check is the reserved row's: its word must be none of the five commands' (30_encoding.md R85, R89, R91). -/

namespace Sys2Proof

/-- A reserved command word has a nonzero RSVD field (30_encoding.md R91) or an OP of 5, 6 or 7 (R89). -/
def isReservedCommand (op : BitVec 3) (rsvd : BitVec 13) : Bool :=
  rsvd != 0 || decide (5 ≤ op.toNat)

/-- The term stands for an encoding of the opcode table. -/
def Instr.wellFormed : Instr → Bool
  | .rdr _ => true
  | .wrr _ _ => true
  | .rdb _ => true
  | .wrb _ _ => true
  | .nop => true
  | .cksum => true
  | .verify => true
  | .encode => true
  | .decode => true
  | .badCmd op rsvd => isReservedCommand op rsvd

end Sys2Proof
end

