-- ==== Sys2Proof/Decode.lean ====
section
/-! DEFINITION. The decoder of request words (30_encoding.md R80, R81) and command words (R84, R85), total on each
(R90), and after it the encoder, written from the same tables. Numbers that are no word of either width are rejected
by name. -/

namespace Sys2Proof

/-- WE, bit 27 of a request word (R80). -/
def reqWe (w : Request) : Bool := w.getLsbD 27

/-- SPACE, bit 26 of a request word (R80). -/
def reqSpace (w : Request) : Bool := w.getLsbD 26

/-- ADDR, bits [25:16] of a request word (R80). -/
def reqAddr (w : Request) : PortAddr := w.extractLsb' 16 10

/-- WDATA, bits [15:0] of a request word (R80). -/
def reqWdata (w : Request) : Half := w.extractLsb' 0 16

/-- The transaction a request word selects by {WE, SPACE} (R81): a read ignores WDATA, a buffer write uses WDATA[7:0]
only (R83). -/
def decodeRequest (w : Request) : Instr :=
  match reqWe w, reqSpace w with
  | false, false => .rdr (reqAddr w)
  | true, false => .wrr (reqAddr w) (reqWdata w)
  | false, true => .rdb (reqAddr w)
  | true, true => .wrb (reqAddr w) ((reqWdata w).extractLsb' 0 8)

/-- OP, bits [2:0] of a command word (R84). -/
def cmdOp (v : Half) : BitVec 3 := v.extractLsb' 0 3

/-- RSVD, bits [15:3] of a command word (R84). -/
def cmdRsvd (v : Half) : BitVec 13 := v.extractLsb' 3 13

/-- The command a command word selects: the RSVD check comes before the OP dispatch (R87, R91); OP 5, 6 and 7 are
reserved (R89). -/
def decodeCommand (v : Half) : Instr :=
  if cmdRsvd v != 0 then .badCmd (cmdOp v) (cmdRsvd v)
  else
    match (cmdOp v).toNat with
    | 0 => .nop
    | 1 => .cksum
    | 2 => .verify
    | 3 => .encode
    | 4 => .decode
    | _ => .badCmd (cmdOp v) (cmdRsvd v)

/-- The instruction an encoding selects (R90: the decode is total). -/
def decode : Encoded → Instr
  | .request w => decodeRequest w
  | .command v => decodeCommand v

/-- Why a number is no encoding. Raised by `decodeWord` only; safe: no word of the hardware is rejected. -/
inductive DecodeReject where
  /-- A request word has 28 bits (R80, R92). -/
  | requestTooWide
  /-- A command word has 16 bits (R84, R92). -/
  | commandTooWide
deriving DecidableEq, Repr

/-- The instruction of the number `w` given as `nbits` bits: at most 16 bits are a command word, more are a request
word (notes/assumptions/14.md). -/
def decodeWord (nbits w : Nat) : Except DecodeReject Instr :=
  if nbits ≤ 16 then
    if w < 2 ^ 16 then .ok (decode (.command (BitVec.ofNat 16 w))) else .error .commandTooWide
  else
    if w < 2 ^ 28 then .ok (decode (.request (BitVec.ofNat 28 w))) else .error .requestTooWide

/-- The instruction the decoder reads from an opcode-table row's word, none where it rejects. -/
def decodeTableWord (nbits w : Nat) : Option Instr :=
  match decodeWord nbits w with
  | .ok i => some i
  | .error _ => none

/-- The request word of its four fields: `(WE << 27) | (SPACE << 26) | (ADDR << 16) | WDATA` (R80, R100). -/
def requestWord (we space : Bool) (addr : PortAddr) (wdata : Half) : Request :=
  BitVec.ofBool we ++ BitVec.ofBool space ++ addr ++ wdata

/-- The command word of its two fields (R84). -/
def commandWord (op : BitVec 3) (rsvd : BitVec 13) : Half :=
  rsvd ++ op

/-- The words of an instruction, with every ignored bit 0 as assemblers write it (R81, R85, R100). -/
def encode : Instr → Encoded
  | .rdr a => .request (requestWord false false a 0)
  | .wrr a v => .request (requestWord true false a v)
  | .rdb i => .request (requestWord false true i 0)
  | .wrb i b => .request (requestWord true true i (b.setWidth 16))
  | .nop => .command (commandWord 0 0)
  | .cksum => .command (commandWord 1 0)
  | .verify => .command (commandWord 2 0)
  | .encode => .command (commandWord 3 0)
  | .decode => .command (commandWord 4 0)
  | .badCmd op rsvd => .command (commandWord op rsvd)

/-- How many bits an encoding has, in whole bytes as `decodeTableWord` counts them. -/
def Encoded.nbits : Encoded → Nat
  | .request _ => 32
  | .command _ => 16

/-- An encoding as a number, bit 0 its least significant bit (00_scope.md R8). -/
def Encoded.toNat : Encoded → Nat
  | .request w => w.toNat
  | .command v => v.toNat

end Sys2Proof
end

