-- ==== Sys2Proof/Machine/Schedule.lean ====
section
/-! DEFINITION. What the next step does (60_exceptions.md R197), how an instruction is placed to be the very next one, and
the host's queue. -/

namespace Sys2Proof.Machine

/-- What the next step does. -/
inductive Action where
  /-- The state is faulted: no step but reset has a meaning (60_exceptions.md R190). -/
  | stopped (r : Fault)
  /-- `rst` is asserted (70_reset_and_hazards.md R210). -/
  | reset
  /-- A host transaction, or the engine performing the pending command. -/
  | run (i : Instr)
  /-- Nothing happens: the host drives nothing and no command is pending (60_exceptions.md R204). -/
  | idle
deriving DecidableEq, Repr

/-- The engine's turn: it performs the command in CMD while one is pending, and has no step otherwise
(10_state.md R20, 30_encoding.md R87, notes/assumptions/11.md). -/
def engineAction (s : State) : Action :=
  if s.pending then .run (decodeCommand s.regs.cmd) else .idle

/-- The action of a step other than reset: a faulted state has none (60_exceptions.md R190, notes/assumptions/3.md). -/
def unlessFaulted (s : State) (a : Action) : Action :=
  match s.fault with
  | some r => .stopped r
  | none => a

/-- The next step's action. `rst` comes before everything else and acts in any state, a faulted one included
(70_reset_and_hazards.md R210). With nothing left in `inputs` the engine takes its turn, so a pending command is always
performed after finitely many steps (R225, notes/assumptions/2.md). -/
def nextAction (s : State) : Action :=
  match s.inputs with
  | .rst :: _ => .reset
  | [] => unlessFaulted s (engineAction s)
  | .engine :: _ => unlessFaulted s (engineAction s)
  | .request w :: _ => unlessFaulted s (.run (decodeRequest w))

/-- LATENCY as this model holds it: how many host transactions come before the engine's turn (00_scope.md R6,
70_reset_and_hazards.md R225). Any finite number, 0 included, is the latency of some input list. -/
def latency : List Event → Nat
  | [] => 0
  | .engine :: _ => 0
  | .rst :: _ => 0
  | .request _ :: rest => latency rest + 1

/-- The state with its next input taken. -/
def consumeInput (s : State) : State := { s with inputs := s.inputs.tail }

/-- What a step answers for what a meaning answered: a fault is recorded in the state (60_exceptions.md R190,
notes/assumptions/3.md). -/
def settle (s : State) : Result → Result
  | .next t => .next t
  | .fault r => .next (recordFault r s)
  | .refused r => .refused r

/-- The state with a request word as its very next input, no fault recorded. -/
def placeRequest (w : Request) (s : State) : State :=
  { s with inputs := .request w :: s.inputs, fault := none }

/-- The state with a command word issued and the engine's turn next, no fault recorded. -/
def placeCommand (v : Half) (s : State) : State :=
  { issue v s with inputs := .engine :: s.inputs, fault := none }

end Sys2Proof.Machine
end

