-- ==== Sys2Proof/Machine/Step.lean ====
section
/-! DEFINITION. One step of the block and its host (60_exceptions.md R197), and the placing of one instruction as the
next. -/

namespace Sys2Proof.Machine

/-- One step: the next action is taken. A faulted state answers its fault on every step but `rst`, which resets the block
and keeps the fault, so nothing clears it (60_exceptions.md R190, 70_reset_and_hazards.md R210). -/
def step (s : State) : Host.Outcome State Fault Refusal :=
  match nextAction s with
  | .stopped r => .fault r
  | .reset => .next (applyReset (consumeInput s))
  | .run i => settle (consumeInput s) (exec i (consumeInput s))
  | .idle => .next (consumeInput s)

/-- The state in which the very next step runs the instruction of an opcode-table row's word: at most 16 bits are a
command word in CMD, more are a request word on the port (notes/assumptions/8.md, 14.md). -/
def State.withFetchWord (s : State) (nbits w : Nat) : State :=
  if nbits ≤ 16 then placeCommand (BitVec.ofNat 16 w) s else placeRequest (BitVec.ofNat 28 w) s

end Sys2Proof.Machine
end

