-- ==== Sys2Proof/Machine/Assembler.lean ====
section
/-! DEFINITION. The host's side of the port as the spec spells it: the assembly syntax (30_encoding.md R100), the
pseudo-instructions (R101), and a host program as the block's inputs. Nothing here changes what the block does. -/

namespace Sys2Proof.Machine

/-! ### Host programs -/

/-- The request word of a transaction, none for a command word (which is no transaction). -/
def requestOf (i : Instr) : Option Request :=
  match encode i with
  | .request w => some w
  | .command _ => none

/-- The transactions of a host program as inputs, the host driving one after another (42_host_access.md R160). -/
def hostEvents (is : List Instr) : List Event := (is.filterMap requestOf).map Event.request

/-- `CMD <name>`: WRR CMD with the command's word (30_encoding.md R101). -/
def cmdPseudo (i : Instr) : Option Instr :=
  match encode i with
  | .request _ => none
  | .command v => some (.wrr (regAddr .cmd) v)

/-- `POLL` with `n` reads: each is an RDR STATUS; when to stop is the host's own control flow (30_encoding.md R101). -/
def pollReads (n : Nat) : List Instr := List.replicate n (.rdr (regAddr .status))

/-- `WRBUF i, b0, ..., bk` (30_encoding.md R101). -/
def wrBuf (i : Nat) : List Byte → List Instr
  | [] => []
  | b :: bs => .wrb (BitVec.ofNat 10 i) b :: wrBuf (i + 1) bs

/-- `RDBUF i, n` (30_encoding.md R101). -/
def rdBuf (i : Nat) : Nat → List Instr
  | 0 => []
  | n + 1 => .rdb (BitVec.ofNat 10 i) :: rdBuf (i + 1) n

/-! ### Assembly text -/

/-- One line of host assembly: the transactions it stands for, or the host's POLL loop (30_encoding.md R100, R101). -/
inductive AsmLine where
  | transactions (is : List Instr)
  | poll
deriving DecidableEq, Repr

/-- A token: a run of characters that are neither spaces nor commas, or a comma. -/
inductive Token where
  | word (cs : List Char)
  | comma
deriving DecidableEq, Repr

/-- Close the word being read, if there is one. -/
def pushWord (cur : List Char) (rest : List Token) : List Token :=
  match cur with
  | [] => rest
  | c :: cs => .word (c :: cs).reverse :: rest

/-- The tokens of a line, `cur` the word being read, reversed; `;` starts a comment (30_encoding.md R100). -/
def tokens (cur : List Char) : List Char → List Token
  | [] => pushWord cur []
  | c :: cs =>
    if c = ';' then pushWord cur []
    else if c = ' ' ∨ c = '\t' then pushWord cur (tokens [] cs)
    else if c = ',' then pushWord cur (.comma :: tokens [] cs)
    else tokens (c :: cur) cs

/-- The value of a digit character. -/
def digitValue (c : Char) : Option Nat :=
  if '0' ≤ c ∧ c ≤ '9' then some (c.toNat - '0'.toNat)
  else if 'a' ≤ c ∧ c ≤ 'f' then some (c.toNat - 'a'.toNat + 10)
  else if 'A' ≤ c ∧ c ≤ 'F' then some (c.toNat - 'A'.toNat + 10)
  else none

/-- The number of a run of digits in a base, onto `acc`. -/
def digits (base acc : Nat) : List Char → Option Nat
  | [] => some acc
  | c :: cs =>
    match digitValue c with
    | some d => if d < base then digits base (acc * base + d) cs else none
    | none => none

/-- A number: decimal, or hexadecimal after `0x` (30_encoding.md R100). -/
def parseNumber : List Char → Option Nat
  | [] => none
  | '0' :: 'x' :: c :: cs => digits 16 0 (c :: cs)
  | c :: cs => digits 10 0 (c :: cs)

/-- The mnemonic of a register (30_encoding.md R100). -/
def regMnemonic : Reg → String
  | .cmd => "CMD"
  | .status => "STATUS"
  | .inKind => "IN_KIND"
  | .inSeq => "IN_SEQ"
  | .inPlen => "IN_PLEN"
  | .inFlen => "IN_FLEN"
  | .outKind => "OUT_KIND"
  | .outSeq => "OUT_SEQ"
  | .outCsum => "OUT_CSUM"
  | .outLen => "OUT_LEN"
  | .outFlen => "OUT_FLEN"
  | .outPlen => "OUT_PLEN"

/-- The 12 registers in the order of their numbers (10_state.md R25). -/
def allRegs : List Reg :=
  [.cmd, .status, .inKind, .inSeq, .inPlen, .inFlen, .outKind, .outSeq, .outCsum, .outLen, .outFlen, .outPlen]

/-- A number no greater than `max`. -/
def parseUpTo (max : Nat) (cs : List Char) : Option Nat :=
  match parseNumber cs with
  | some n => if n ≤ max then some n else none
  | none => none

/-- A register operand: a mnemonic, or a number 0 to 1023 (30_encoding.md R100). -/
def parseReg (cs : List Char) : Option PortAddr :=
  match allRegs.find? fun r => decide ((regMnemonic r).toList = cs) with
  | some r => some (regAddr r)
  | none => (parseUpTo 1023 cs).map (BitVec.ofNat 10)

/-- The command a command mnemonic names (30_encoding.md R101). -/
def parseCommand (cs : List Char) : Option Instr :=
  if cs = "NOP".toList then some .nop
  else if cs = "CKSUM".toList then some .cksum
  else if cs = "VERIFY".toList then some .verify
  else if cs = "ENCODE".toList then some .encode
  else if cs = "DECODE".toList then some .decode
  else none

/-- The bytes after the index of a WRBUF, each after a comma. -/
def parseBytes : List Token → Option (List Byte)
  | [] => some []
  | .comma :: .word b :: rest =>
    match parseUpTo 0xFF b, parseBytes rest with
    | some n, some bs => some (BitVec.ofNat 8 n :: bs)
    | _, _ => none
  | _ => none

/-- The line with mnemonic `m` and the operand tokens after it (30_encoding.md R100, R101). -/
def assembleTokens (m : List Char) (ops : List Token) : Option AsmLine :=
  if m = "RDR".toList then
    match ops with
    | [.word r] => (parseReg r).map fun a => .transactions [.rdr a]
    | _ => none
  else if m = "WRR".toList then
    match ops with
    | [.word r, .comma, .word v] =>
      match parseReg r, parseUpTo 0xFFFF v with
      | some a, some n => some (.transactions [.wrr a (BitVec.ofNat 16 n)])
      | _, _ => none
    | _ => none
  else if m = "RDB".toList then
    match ops with
    | [.word i] => (parseUpTo 1023 i).map fun n => .transactions [.rdb (BitVec.ofNat 10 n)]
    | _ => none
  else if m = "WRB".toList then
    match ops with
    | [.word i, .comma, .word b] =>
      match parseUpTo 1023 i, parseUpTo 0xFFFF b with
      | some n, some v => some (.transactions [.wrb (BitVec.ofNat 10 n) (BitVec.ofNat 8 v)])
      | _, _ => none
    | _ => none
  else if m = "CMD".toList then
    match ops with
    | [.word c] => ((parseCommand c).bind cmdPseudo).map fun i => .transactions [i]
    | _ => none
  else if m = "POLL".toList then
    match ops with
    | [] => some .poll
    | _ => none
  else if m = "WRBUF".toList then
    match ops with
    | .word i :: rest =>
      match parseUpTo 1023 i, parseBytes rest with
      | some n, some (b :: bs) =>
        if n + bs.length ≤ 1023 then some (.transactions (wrBuf n (b :: bs))) else none
      | _, _ => none
    | _ => none
  else if m = "RDBUF".toList then
    match ops with
    | [.word i, .comma, .word n] =>
      match parseUpTo 1023 i, parseNumber n with
      | some k, some c => if k + c ≤ 1024 then some (.transactions (rdBuf k c)) else none
      | _, _ => none
    | _ => none
  else none

/-- One line of host assembly, none where it is not of the syntax; an empty line stands for no transaction
(30_encoding.md R100, R101, notes/assumptions/18.md). -/
def assembleLine (line : String) : Option AsmLine :=
  match tokens [] line.toList with
  | [] => some (.transactions [])
  | .word m :: ops => assembleTokens m ops
  | .comma :: _ => none

/-- The assembly text of a transaction, none for a command word (30_encoding.md R100). -/
def asmText : Instr → Option String
  | .rdr a => some ("RDR " ++ toString a.toNat)
  | .wrr a v => some ("WRR " ++ toString a.toNat ++ ", " ++ toString v.toNat)
  | .rdb i => some ("RDB " ++ toString i.toNat)
  | .wrb i b => some ("WRB " ++ toString i.toNat ++ ", " ++ toString b.toNat)
  | .nop => none
  | .cksum => none
  | .verify => none
  | .encode => none
  | .decode => none
  | .badCmd _ _ => none

end Sys2Proof.Machine
end

