-- ==== Sys2Proof/Safety.lean ====
section
/-! DEFINITION. The terms claims are made in: the invariant of the state, frames, the host's duties and liberties
(42_host_access.md R170 to R172), quiescence (70_reset_and_hazards.md R226) and the well-formed packet
(41_framing.md R145). -/

namespace Sys2Proof.Machine

/-- What holds at reset and is kept by every step. -/
structure State.Inv (s : State) : Prop where
  /-- FBUF keeps its canonical form and its size (10_state.md R23). -/
  fbuf_wf : s.fbuf.wf = true
  /-- The pending command equals STATUS.BUSY (10_state.md R48). -/
  pending_eq_busy : s.pending = s.busy
  /-- While BUSY = 1, STATUS is 0x0001 (10_state.md R31, 42_host_access.md R162), so DONE = 0 (R33). -/
  busy_alone : s.busy = true → s.regs.status = 0x0001
  /-- While BUSY = 0 and DONE = 0, no command has completed since reset and STATUS is 0x0000 (70 R213, R33). -/
  idle_status : s.busy = false → s.done = false → s.regs.status = 0x0000
  /-- The bits a register does not use are 0 (10_state.md R26, R30, R40, R41). -/
  unused_zero : ∀ r, s.regs.get r &&& ~~~(usedBits r) = 0
  /-- ERR codes 6 to 15 are never produced (10_state.md R35, 60_exceptions.md R181). -/
  err_known : s.err.toNat ≤ 5
  /-- With an error, VALID and the four flags are 0 (60_exceptions.md R182). -/
  err_no_flags : s.err ≠ 0 →
    s.valid = false ∧ s.fKind = false ∧ s.fLen = false ∧ s.fOver = false ∧ s.fAck = false
  /-- VALID is VERIFY's and the flags are DECODE's (10_state.md R34, R36 to R39). -/
  valid_no_flags : s.valid = true → s.fKind = false ∧ s.fLen = false ∧ s.fOver = false ∧ s.fAck = false
  /-- F_OVER = 1 implies F_LEN = 1 (41_framing.md R144). -/
  over_implies_len : s.fOver = true → s.fLen = true
  /-- F_KIND = 1 implies F_ACK = 0 (41_framing.md R144). -/
  kind_excludes_ack : s.fKind = true → s.fAck = false
  /-- OUT_FLEN is 0 until the first ENCODE without error, then in 6..1006 (10_state.md R44). -/
  out_flen_range : s.regs.outFlen = 0 ∨ (6 ≤ s.regs.outFlen.toNat ∧ s.regs.outFlen.toNat ≤ 1006)
  /-- OUT_PLEN is in 0..1000 (10_state.md R45). -/
  out_plen_range : s.regs.outPlen.toNat ≤ 1000

/-- Every register but those of `rs`, the recorded fault and the queued inputs are as before. -/
def frame (rs : List Reg) (s t : State) : Prop :=
  (∀ r, r ∉ rs → t.regs.get r = s.regs.get r) ∧ t.fault = s.fault ∧ t.inputs = s.inputs

/-- Every FBUF cell outside `[lo, hi)` reads as before. -/
def keepsCellsOutside (lo hi : Nat) (s t : State) : Prop :=
  ∀ i, (i < lo ∨ hi ≤ i) → t.fbuf.read i = s.fbuf.read i

/-- Every FBUF cell reads as before. -/
def keepsFbuf (s t : State) : Prop := ∀ i, t.fbuf.read i = s.fbuf.read i

/-- `FBUF[lo..]` holds the bytes `B`, one by one. -/
def holdsAt (s : State) (lo : Nat) (B : List Byte) : Prop :=
  ∀ k, k < B.length → s.fbuf.read (lo + k) = B[k]?

/-- A host transaction (30_encoding.md R81). -/
def isTransaction : Instr → Bool
  | .rdr _ => true
  | .wrr _ _ => true
  | .rdb _ => true
  | .wrb _ _ => true
  | .nop => false
  | .cksum => false
  | .verify => false
  | .encode => false
  | .decode => false
  | .badCmd _ _ => false

/-- An output register, written by the engine and by reset only (10_state.md R25, R26). -/
def Reg.isOutput : Reg → Bool
  | .cmd => false
  | .status => false
  | .inKind => false
  | .inSeq => false
  | .inPlen => false
  | .inFlen => false
  | .outKind => true
  | .outSeq => true
  | .outCsum => true
  | .outLen => true
  | .outFlen => true
  | .outPlen => true

/-- The host may drive this transaction now as far as BUSY goes: anything while BUSY = 0, RDR STATUS alone while BUSY = 1
(42_host_access.md R171, R172). -/
def hostMay (s : State) (w : Request) : Prop :=
  s.busy = false ∨ decodeRequest w = .rdr (regAddr .status)

/-- The run has ended well (70_reset_and_hazards.md R226). -/
def State.quiescent (s : State) : Bool :=
  !s.pending && s.fault.isNone && s.inputs.all fun e =>
    match e with
    | .request _ => false
    | .engine => true
    | .rst => true

/-- The last DECODE's result is a well-formed packet (41_framing.md R145). -/
def State.wellFormedPacket (s : State) : Bool :=
  s.done && s.err == 0 && !s.fKind && !s.fLen && !s.fOver && !s.fAck

/-- `u` is a DECODE's result that gives back what `s` framed and `t` holds (41_framing.md R146): kind, sequence number,
length, checksum, a well-formed packet, the payload bytes untouched. -/
def decodesBack (s t u : State) : Prop :=
  u.regs.outKind = (s.regs.inKind.extractLsb' 0 8).setWidth 16 ∧
  u.regs.outSeq = (s.regs.inSeq.extractLsb' 0 8).setWidth 16 ∧
  u.regs.outLen = s.regs.inPlen ∧ u.regs.outPlen = s.regs.inPlen ∧ u.regs.outCsum = t.regs.outCsum ∧
  u.wellFormedPacket = true ∧ ∀ k, 6 ≤ k → u.fbuf.read k = s.fbuf.read k

end Sys2Proof.Machine
end

