-- ==== Sys2Proof/Certificates/Slice0/Obligations.lean ====
section
/-! DEFINITION. The statements for the provers. Each docstring names the rule of spec/ the statement formalises. Where a
statement speaks of `inputs` or `rdata`, those are the model's own fields (notes/assumptions/1.md, 4.md). -/

open Sys2Proof Sys2Proof.Machine

/-! ### Encodings -/

/-- Decoding an encoded well-formed instruction gives it back: no operand bit is dropped (30_encoding.md). -/
def Obligations.DecodeOfEncodedInstruction : Prop :=
  ∀ i : Instr, i.wellFormed = true → decode (encode i) = i

/-- The opcode table's numbering of an encoded instruction decodes to it (30_encoding.md R80, R84). -/
def Obligations.TableWordOfEncodedInstruction : Prop :=
  ∀ i : Instr, i.wellFormed = true → decodeTableWord (encode i).nbits (encode i).toNat = some i

/-- Every word has one meaning: encoding a decoded command word gives the word back, and encoding a decoded request word
gives it back with its ignored bits 0 (R81: the WDATA of a read, WDATA[15:8] of a buffer write). -/
def Obligations.EncodeOfDecodedWord : Prop :=
  (∀ v : Half, encode (decodeCommand v) = .command v) ∧
  (∀ w : Request, encode (decodeRequest w) = .request
    (if w.getLsbD 27 then (if w.getLsbD 26 then w &&& 0xFFF00FF else w) else w &&& 0xFFF0000))

/-- R90: every 16-bit CMD value selects exactly one outcome, a command when CMD[15:3] = 0 and OP is 0..4 and BAD_CMD
otherwise; every 28-bit request word selects exactly one transaction kind. -/
def Obligations.CommandAndRequestDecodeTotal : Prop :=
  (∀ v : Half, v.toNat < 5 → some (decodeCommand v) =
    [Instr.nop, Instr.cksum, Instr.verify, Instr.encode, Instr.decode][v.toNat]?) ∧
  (∀ v : Half, 5 ≤ v.toNat → ∃ op rsvd, decodeCommand v = .badCmd op rsvd) ∧
  (∀ w : Request, isTransaction (decodeRequest w) = true)

/-- The transaction a request word selects by bits [27:26], its operands, and the reads that ignore WDATA
(30_encoding.md R80, R81, R83). -/
def Obligations.RequestKindBySelectorBits : Prop :=
  ∀ w : Request,
    (w.extractLsb' 26 2 = 0b00#2 → decodeRequest w = .rdr (w.extractLsb' 16 10)) ∧
    (w.extractLsb' 26 2 = 0b10#2 → decodeRequest w = .wrr (w.extractLsb' 16 10) (w.extractLsb' 0 16)) ∧
    (w.extractLsb' 26 2 = 0b01#2 → decodeRequest w = .rdb (w.extractLsb' 16 10)) ∧
    (w.extractLsb' 26 2 = 0b11#2 → decodeRequest w = .wrb (w.extractLsb' 16 10) (w.extractLsb' 0 8))

/-- Words written out from the spec's examples decode to the instructions they stand for (30_encoding.md R100, R101,
42_host_access.md R162 to R165, 95_test_vectors.md). -/
def Obligations.SpecExampleWordsDecode : Prop :=
  decode (.request 0x0010000) = .rdr 1 ∧ decode (.request 0x802000C) = .wrr 2 12 ∧
  decode (.request 0x4020000) = .rdb 2 ∧ decode (.request 0xC060068) = .wrb 6 0x68 ∧
  decode (.command 0x0000) = .nop ∧ decode (.command 0x0001) = .cksum ∧ decode (.command 0x0002) = .verify ∧
  decode (.command 0x0003) = .encode ∧ decode (.command 0x0004) = .decode ∧ decode (.command 0x8003) = .badCmd 3 0x1000

/-- The pseudo-instruction `CMD <name>` is the request word 0x8000000 + OP (30_encoding.md R101). -/
def Obligations.CommandPseudoRequestWords : Prop :=
  (cmdPseudo .nop).bind requestOf = some 0x8000000 ∧ (cmdPseudo .cksum).bind requestOf = some 0x8000001 ∧
  (cmdPseudo .verify).bind requestOf = some 0x8000002 ∧ (cmdPseudo .encode).bind requestOf = some 0x8000003 ∧
  (cmdPseudo .decode).bind requestOf = some 0x8000004

/-! ### The checksum function -/

/-- R110: word i is made of bytes 2i and 2i+1, a missing last byte being zero, and there are ⌈n/2⌉ words. -/
def Obligations.WordFormation : Prop :=
  ∀ (e : Endian) (B : List Byte),
    (words e B).length = (B.length + 1) / 2 ∧
    (∀ i, 2 * i < B.length → (words e B)[i]? = some (get16 e (B.getD (2 * i) 0) (B.getD (2 * i + 1) 0))) ∧
    (∀ b, get16 .big b 0 = BitVec.ofNat 16 (b.toNat * 256) ∧ get16 .little b 0 = b.setWidth 16)

/-- R113: the fold is 0 for 0, otherwise the one value in 1..0xFFFF congruent to S modulo 0xFFFF; it is 0 exactly when
every word is 0, that is every byte is 0 (or there is none). -/
def Obligations.FoldClosedForm : Prop :=
  (∀ S, fold S = if S = 0 then 0 else 1 + (S - 1) % 0xFFFF) ∧
  (∀ S x, 0 < S → (x = fold S ↔ 1 ≤ x ∧ x ≤ 0xFFFF ∧ x % 0xFFFF = S % 0xFFFF)) ∧
  (∀ e B, (fold (wordSum (words e B)) = 0 ↔ ∀ w ∈ words e B, w = 0) ∧
    (fold (wordSum (words e B)) = 0 ↔ ∀ b ∈ B, b = 0))

/-- R114: the per-word end-around-carry accumulation gives the fold of the whole sum, for every B; and after any words it
stays congruent to their sum, in 0..0xFFFF, and 0 only while every word so far is 0. -/
def Obligations.IncrementalAccumulationIsFold : Prop :=
  (∀ (e : Endian) (B : List Byte), accumulate 0 (words e B) = fold (wordSum (words e B))) ∧
  (∀ ws : List Half, accumulate 0 ws % 0xFFFF = wordSum ws % 0xFFFF ∧ accumulate 0 ws ≤ 0xFFFF ∧
    (accumulate 0 ws = 0 ↔ ∀ w ∈ ws, w = 0))

/-- R112, R115: the checksum is 0xFFFF minus the fold of the sum; it is 0 exactly when the fold is 0xFFFF, that is when S > 0 and S ≡ 0 modulo 0xFFFF; a sequence of
zero bytes has checksum 0xFFFF. -/
def Obligations.ValidityIsPositiveMultiple : Prop :=
  ∀ (e : Endian) (B : List Byte),
    (checksum e B).toNat = 0xFFFF - fold (wordSum (words e B)) ∧
    (checksum e B = 0 ↔ fold (wordSum (words e B)) = 0xFFFF) ∧
    (fold (wordSum (words e B)) = 0xFFFF ↔ 0 < wordSum (words e B) ∧ wordSum (words e B) % 0xFFFF = 0) ∧
    (wordSum (words e B) = 0 ↔ ∀ b ∈ B, b = 0) ∧
    (wordSum (words e B) = 0 → checksum e B = 0xFFFF)

/-- R116: the order and the grouping in which the words are summed and folded are not visible, and the largest sum of a
frame is 0x1F6FE09: no sequence of at most 1006 bytes exceeds it, and 1006 bytes FF reach it. -/
def Obligations.SumOrderAndGroupingFree : Prop :=
  (∀ ws ws' : List Half, ws.Perm ws' → fold (wordSum ws) = fold (wordSum ws')) ∧
  (∀ ws ws' : List Half, fold (fold (wordSum ws) + fold (wordSum ws')) = fold (wordSum (ws ++ ws'))) ∧
  (∀ (e : Endian) (B : List Byte), B.length ≤ 1006 → wordSum (words e B) ≤ 0x1F6FE09) ∧
  (∀ e : Endian, wordSum (words e (List.replicate 1006 0xFF)) = 0x1F6FE09)

/-- The byte-order relation (40_checksum.md R118): the LITTLE checksum is the BIG one with its bytes swapped, so the two
checksum bytes, and whether a sequence is valid, are the same in either byte order. The frames of the two orders are the
same exactly when the two bytes of the length field are (R118 says they differ for every nonempty payload, which fails for
the lengths 257, 514 and 771: notes/assumptions/19.md). -/
def Obligations.ByteOrderSwapsChecksum : Prop :=
  (∀ B : List Byte,
    checksum .little B = swap16 (checksum .big B) ∧
    put16 .little (checksum .little B) = put16 .big (checksum .big B) ∧
    (checksum .little B = 0 ↔ checksum .big B = 0)) ∧
  (∀ (k q : Byte) (L : Half) (P : List Byte),
    frameOf .little k q L P = frameOf .big k q L P ↔ L.extractLsb' 8 8 = L.extractLsb' 0 8)

/-- R123: changing exactly one byte of a sequence with checksum 0 gives a sequence with a nonzero checksum; so a frame
VERIFY accepts is rejected once any one of its bytes is changed. -/
def Obligations.SingleByteErrorDetected : Prop :=
  (∀ (e : Endian) (B : List Byte) (i : Nat) (b : Byte),
    i < B.length → checksum e B = 0 → B[i]? ≠ some b → checksum e (B.set i b) ≠ 0) ∧
  (∀ (s t : State) (k : Nat) (b : Byte), exec .verify s = .next t → t.valid = true →
    k < s.regs.inFlen.toNat → s.fbuf.read k ≠ some b →
    ∃ t', exec .verify { s with fbuf := s.fbuf.write k b } = .next t' ∧ t'.err = 0 ∧ t'.valid = false)

/-- R124: changes the checksum does not detect: two words at even offsets swapped, a word 0x0000 replaced by 0xFFFF or the
reverse while the sum stays positive, zero bytes appended, and any change that moves the (positive) sum by a multiple of
0xFFFF. -/
def Obligations.UndetectedChangesKeepValidity : Prop :=
  ∀ e : Endian,
    (∀ (A M Z : List Byte) (a0 a1 b0 b1 : Byte), A.length % 2 = 0 → M.length % 2 = 0 →
      checksum e (A ++ [a0, a1] ++ M ++ [b0, b1] ++ Z) = checksum e (A ++ [b0, b1] ++ M ++ [a0, a1] ++ Z)) ∧
    (∀ A Z : List Byte, A.length % 2 = 0 →
      checksum e (A ++ [0x00, 0x00] ++ Z) = 0 → checksum e (A ++ [0xFF, 0xFF] ++ Z) = 0) ∧
    (∀ A Z : List Byte, A.length % 2 = 0 → (∃ b ∈ A ++ Z, b ≠ 0) →
      checksum e (A ++ [0xFF, 0xFF] ++ Z) = 0 → checksum e (A ++ [0x00, 0x00] ++ Z) = 0) ∧
    (∀ (B : List Byte) (k : Nat), checksum e (B ++ List.replicate k 0) = checksum e B) ∧
    (∀ B B' : List Byte, 0 < wordSum (words e B) → 0 < wordSum (words e B') →
      wordSum (words e B) % 0xFFFF = wordSum (words e B') % 0xFFFF → checksum e B = checksum e B')

/-! ### Host transactions -/

/-- The register numbers, used bits and reset values of the register table (10_state.md R25). -/
def Obligations.RegisterTableAsSpecified : Prop :=
  allRegs.map (fun r => (regNumber r, usedBits r, RegFile.reset.get r)) =
    [(0, 0xFFFF, 0), (1, 0x0FF7, 0), (2, 0x00FF, 0), (3, 0x00FF, 0), (4, 0xFFFF, 0), (5, 0xFFFF, 0),
     (6, 0x00FF, 0), (7, 0x00FF, 0), (8, 0xFFFF, 0), (9, 0xFFFF, 0), (10, 0xFFFF, 0), (11, 0xFFFF, 0)]

/-- R162: RDR answers the register's used bits, or 0 at a reserved address, and changes nothing but the response; while
BUSY = 1 every address but 1 faults, and STATUS (in a state that meets the invariant) reads 0x0001. Its request word is
`00 a`, WDATA ignored. -/
def Obligations.RegisterReadResponds : Prop :=
  ∀ (a : PortAddr) (s : State),
    (∀ d : Half, decodeRequest (0b00#2 ++ a ++ d) = .rdr a) ∧
    (s.busy = true → a ≠ 1 → exec (.rdr a) s = .fault .hazardBusyAccess) ∧
    (s.busy = false ∨ a = 1 → ∃ v : Half,
      exec (.rdr a) s = .next { s with rdata := some v } ∧
      (∀ r : Reg, a.toNat = regNumber r → v = s.regs.get r &&& usedBits r) ∧
      (12 ≤ a.toNat → v = 0)) ∧
    (s.Inv → s.busy = true → exec (.rdr 1) s = .next { s with rdata := some 0x0001 })

/-- R163: WRR faults while BUSY = 1; while BUSY = 0 address 0 issues a command, 2 and 3 store the low byte, 4 and 5 store
the value, and every other address (read-only or reserved) has no effect. Its request word is `10 a v`. -/
def Obligations.RegisterWriteEffect : Prop :=
  ∀ (a : PortAddr) (v : Half) (s : State),
    decodeRequest (0b10#2 ++ a ++ v) = .wrr a v ∧
    (s.busy = true → exec (.wrr a v) s = .fault .hazardBusyAccess) ∧
    (s.busy = false → ∃ t, exec (.wrr a v) s = .next t ∧ t.rdata = none ∧ t.fbuf = s.fbuf ∧
      (a = 0 → t.regs.cmd = v ∧ t.regs.status = 0x0001 ∧ t.pending = true ∧ frame [.cmd, .status] s t) ∧
      (a ≠ 0 → t.pending = s.pending) ∧
      (a = 2 → t.regs.inKind = (v.extractLsb' 0 8).setWidth 16 ∧ frame [.inKind] s t) ∧
      (a = 3 → t.regs.inSeq = (v.extractLsb' 0 8).setWidth 16 ∧ frame [.inSeq] s t) ∧
      (a = 4 → t.regs.inPlen = v ∧ frame [.inPlen] s t) ∧
      (a = 5 → t.regs.inFlen = v ∧ frame [.inFlen] s t) ∧
      (a = 1 ∨ 6 ≤ a.toNat → frame [] s t))

/-- R164: RDB faults while BUSY = 1; otherwise it answers the byte zero-extended, 0 outside FBUF, and faults UNINIT_READ
on an UNWRITTEN cell; it changes nothing but the response. Its request word is `01 i`, WDATA ignored. -/
def Obligations.BufferReadResponds : Prop :=
  ∀ (i : PortAddr) (s : State),
    (∀ d : Half, decodeRequest (0b01#2 ++ i ++ d) = .rdb i) ∧
    (s.busy = true → exec (.rdb i) s = .fault .hazardBusyAccess) ∧
    (s.busy = false →
      (1006 ≤ i.toNat → exec (.rdb i) s = .next { s with rdata := some 0x0000 }) ∧
      (i.toNat < 1006 →
        (s.fbuf.read i.toNat = none → exec (.rdb i) s = .fault .uninitRead) ∧
        (∀ b, s.fbuf.read i.toNat = some b → exec (.rdb i) s = .next { s with rdata := some (b.setWidth 16) })))

/-- R165: WRB faults while BUSY = 1; otherwise it makes its cell the byte and leaves every other cell alone, and has no
effect outside FBUF. Its request word is `11 i x b`, WDATA[15:8] ignored. -/
def Obligations.BufferWriteEffect : Prop :=
  ∀ (i : PortAddr) (b : Byte) (s : State),
    (∀ x : Byte, decodeRequest (0b11#2 ++ i ++ (x ++ b)) = .wrb i b) ∧
    (s.busy = true → exec (.wrb i b) s = .fault .hazardBusyAccess) ∧
    (s.busy = false →
      (1006 ≤ i.toNat → exec (.wrb i b) s = .next { s with rdata := none }) ∧
      (i.toNat < 1006 → ∃ t, exec (.wrb i b) s = .next t ∧ t.fbuf.read i.toNat = some b ∧
        keepsCellsOutside i.toNat (i.toNat + 1) s t ∧ frame [] s t ∧ t.pending = s.pending ∧ t.rdata = none))

/-- R192: HAZARD_BUSY_ACCESS is raised by any host transaction while BUSY = 1 other than RDR STATUS, and by nothing
else. -/
def Obligations.BusyHazardExactly : Prop :=
  ∀ (i : Instr) (s : State), exec i s = .fault .hazardBusyAccess ↔
    (isTransaction i = true ∧ s.busy = true ∧ i ≠ .rdr 1)

/-- R69: reads and every write but a CMD write are idempotent. -/
def Obligations.TransactionsButIssueIdempotent : Prop :=
  ∀ (i : Instr) (s t : State), isTransaction i = true → (∀ v, i ≠ .wrr 0 v) →
    exec i s = .next t → exec i t = .next t

/-- R26, R31, R69: a host transaction changes no output register, and STATUS, the pending command and the
command register only when it is a CMD write. -/
def Obligations.TransactionsKeepReadOnlyRegisters : Prop :=
  ∀ (i : Instr) (s t : State), isTransaction i = true → exec i s = .next t →
    (∀ r : Reg, r.isOutput = true → t.regs.get r = s.regs.get r) ∧
    ((∀ v, i ≠ .wrr 0 v) →
      t.regs.status = s.regs.status ∧ t.regs.cmd = s.regs.cmd ∧ t.pending = s.pending)

/-! ### Commands -/

/-- R150: NOP, command word 0x0000 and no other, completes with STATUS = 0x0002 and does nothing else. -/
def Obligations.NopCompletesOnly : Prop :=
  (∀ v : Half, decodeCommand v = .nop ↔ v = 0x0000) ∧ decodeRequest 0x8000000 = .wrr 0 0x0000 ∧
  ∀ s : State, exec .nop s = .next { s with regs := { s.regs with status := 0x0002 }, pending := false }

/-- R119: CKSUM with IN_FLEN at most 1006 and every byte of `FBUF[0..IN_FLEN-1]` written completes with OUT_CSUM the
checksum and STATUS 0x0002, and writes nothing else; IN_FLEN above 1006 is RANGE; an unwritten byte faults. Its command
word is 0x0001. -/
def Obligations.CksumWritesChecksum : Prop :=
  decodeCommand 0x0001 = .cksum ∧ decodeRequest 0x8000001 = .wrr 0 0x0001 ∧
  ∀ s : State,
    (1006 < s.regs.inFlen.toNat → exec .cksum s =
      .next { s with regs := { s.regs with status := 0x0022 }, pending := false }) ∧
    (s.regs.inFlen.toNat ≤ 1006 →
      (∀ B : List Byte, B.length = s.regs.inFlen.toNat → holdsAt s 0 B → exec .cksum s =
        .next { s with regs := { s.regs with outCsum := checksum .big B, status := 0x0002 }, pending := false }) ∧
      ((∃ k, k < s.regs.inFlen.toNat ∧ s.fbuf.read k = none) → exec .cksum s = .fault .uninitRead))

/-- R121: VERIFY, command word 0x0002, as CKSUM, with VALID = 1 (STATUS 0x0006) exactly when the checksum is
0x0000. -/
def Obligations.VerifyWritesValidity : Prop :=
  decodeCommand 0x0002 = .verify ∧ decodeRequest 0x8000002 = .wrr 0 0x0002 ∧
  ∀ s : State,
    (1006 < s.regs.inFlen.toNat → exec .verify s =
      .next { s with regs := { s.regs with status := 0x0022 }, pending := false }) ∧
    (s.regs.inFlen.toNat ≤ 1006 →
      (∀ B : List Byte, B.length = s.regs.inFlen.toNat → holdsAt s 0 B → exec .verify s =
        .next { s with
          regs := { s.regs with
            outCsum := checksum .big B, status := if checksum .big B = 0x0000 then 0x0006 else 0x0002 },
          pending := false }) ∧
      ((∃ k, k < s.regs.inFlen.toNat ∧ s.fbuf.read k = none) → exec .verify s = .fault .uninitRead))

/-- R132, R133, R134: ENCODE, command word 0x0003. Its errors in their order, RANGE, BAD_KIND, ACK_PAYLOAD, write nothing
but STATUS. With legal operands and a written payload it writes the header with the checksum in `FBUF[0..5]`, OUT_CSUM,
OUT_LEN and OUT_FLEN, completes with STATUS 0x0002, and writes nothing else; an unwritten payload byte faults. -/
def Obligations.EncodeFramesPayload : Prop :=
  decodeCommand 0x0003 = .encode ∧ decodeRequest 0x8000003 = .wrr 0 0x0003 ∧
  ∀ (s : State) (k q : Byte) (L : Half),
    k = s.regs.inKind.extractLsb' 0 8 → q = s.regs.inSeq.extractLsb' 0 8 → L = s.regs.inPlen →
    (1000 < L.toNat → exec .encode s =
      .next { s with regs := { s.regs with status := 0x0022 }, pending := false }) ∧
    (L.toNat ≤ 1000 → k ≠ 12 → k ≠ 11 → exec .encode s =
      .next { s with regs := { s.regs with status := 0x0042 }, pending := false }) ∧
    (L.toNat ≤ 1000 → k = 11 → L ≠ 0 → exec .encode s =
      .next { s with regs := { s.regs with status := 0x0052 }, pending := false }) ∧
    (L.toNat ≤ 1000 → k = 12 ∨ (k = 11 ∧ L = 0) →
      (∀ P : List Byte, P.length = L.toNat → holdsAt s 6 P → ∃ (t : State) (C : Half),
        exec .encode s = .next t ∧
        C = checksum .big ([k, q, 0x00, 0x00, L.extractLsb' 8 8, L.extractLsb' 0 8] ++ P) ∧
        holdsAt t 0 [k, q, C.extractLsb' 8 8, C.extractLsb' 0 8, L.extractLsb' 8 8, L.extractLsb' 0 8] ∧
        keepsCellsOutside 0 6 s t ∧
        t.regs.outCsum = C ∧ t.regs.outLen = L ∧ t.regs.outFlen.toNat = 6 + L.toNat ∧
        t.regs.status = 0x0002 ∧ t.pending = false ∧ t.rdata = s.rdata ∧
        frame [.status, .outCsum, .outLen, .outFlen] s t) ∧
      ((∃ j, j < L.toNat ∧ s.fbuf.read (6 + j) = none) → exec .encode s = .fault .uninitRead))

/-- R140, R141, R142: DECODE, command word 0x0004. A length above 1006 is RANGE and one below 6 is SHORT, whatever FBUF
holds, and nothing but STATUS is written. With a legal length and a written header it writes the five output registers and
the four flags, completes without error, and writes nothing else; an unwritten header byte faults. -/
def Obligations.DecodeParsesHeader : Prop :=
  decodeCommand 0x0004 = .decode ∧ decodeRequest 0x8000004 = .wrr 0 0x0004 ∧
  ∀ (s : State) (n : Nat), n = s.regs.inFlen.toNat →
    (1006 < n → exec .decode s = .next { s with regs := { s.regs with status := 0x0022 }, pending := false }) ∧
    (n < 6 → exec .decode s = .next { s with regs := { s.regs with status := 0x0032 }, pending := false }) ∧
    (6 ≤ n → n ≤ 1006 →
      (∀ k q c0 c1 l0 l1 : Byte, holdsAt s 0 [k, q, c0, c1, l0, l1] → ∃ (t : State) (L : Nat),
        exec .decode s = .next t ∧ L = l0.toNat * 256 + l1.toNat ∧
        t.regs.outKind = k.setWidth 16 ∧ t.regs.outSeq = q.setWidth 16 ∧
        t.regs.outCsum.toNat = c0.toNat * 256 + c1.toNat ∧ t.regs.outLen.toNat = L ∧ t.regs.outPlen.toNat = n - 6 ∧
        t.busy = false ∧ t.done = true ∧ t.valid = false ∧ t.err = 0 ∧
        (t.fKind = true ↔ k ≠ 12 ∧ k ≠ 11) ∧ (t.fLen = true ↔ L ≠ n - 6) ∧ (t.fOver = true ↔ 1000 < L) ∧
        (t.fAck = true ↔ k = 11 ∧ (L ≠ 0 ∨ n ≠ 6)) ∧
        t.pending = false ∧ t.rdata = s.rdata ∧ t.fbuf = s.fbuf ∧
        frame [.status, .outKind, .outSeq, .outCsum, .outLen, .outPlen] s t) ∧
      ((∃ j, j < 6 ∧ s.fbuf.read j = none) → exec .decode s = .fault .uninitRead))

/-- R89, R91: a command word with OP 5, 6 or 7 or a nonzero RSVD field completes with ERR = BAD_CMD (STATUS 0x0012), and
nothing else changes. -/
def Obligations.ReservedCommandIsBadCmd : Prop :=
  (∀ (op : BitVec 3) (rsvd : BitVec 13) (s : State), exec (.badCmd op rsvd) s =
    .next { s with regs := { s.regs with status := 0x0012 }, pending := false }) ∧
  (∀ (v : Half) (s : State), (v.extractLsb' 3 13 ≠ 0#13 ∨ 5 ≤ (v.extractLsb' 0 3).toNat) →
    exec (decodeCommand v) s = .next { s with regs := { s.regs with status := 0x0012 }, pending := false })

/-- R182: a command that completes with a nonzero ERR writes nothing but STATUS, with VALID and the four flags 0, and does
not read FBUF: with any other FBUF it does the same. -/
def Obligations.ErrorWritesOnlyStatus : Prop :=
  ∀ (i : Instr) (s t : State), isTransaction i = false → exec i s = .next t → t.err ≠ 0 →
    t = { s with regs := { s.regs with status := t.regs.status }, pending := false } ∧
    t.valid = false ∧ t.fKind = false ∧ t.fLen = false ∧ t.fOver = false ∧ t.fAck = false ∧
    ∀ m : Memory, exec i { s with fbuf := m } = .next { t with fbuf := m }

/-- R191: UNINIT_READ is raised exactly by a transaction or a command that reads an UNWRITTEN cell: RDB of the cell, and
CKSUM, VERIFY, ENCODE and DECODE, when no error of theirs applies, over a range that contains it. -/
def Obligations.UninitReadExactly : Prop :=
  ∀ (i : Instr) (s : State), exec i s = .fault .uninitRead ↔
    ((∃ a : PortAddr, i = .rdb a ∧ s.busy = false ∧ a.toNat < 1006 ∧ s.fbuf.read a.toNat = none) ∨
     ((i = .cksum ∨ i = .verify) ∧ s.regs.inFlen.toNat ≤ 1006 ∧
        ∃ k, k < s.regs.inFlen.toNat ∧ s.fbuf.read k = none) ∨
     (i = .encode ∧ s.regs.inPlen.toNat ≤ 1000 ∧ s.regs.inKind.extractLsb' 0 8 = 12#8 ∧
        ∃ k, k < s.regs.inPlen.toNat ∧ s.fbuf.read (6 + k) = none) ∨
     (i = .decode ∧ 6 ≤ s.regs.inFlen.toNat ∧ s.regs.inFlen.toNat ≤ 1006 ∧ ∃ k, k < 6 ∧ s.fbuf.read k = none))

/-- R34: a completion has VALID = 1 exactly when the command was VERIFY, without error, and its checksum was 0x0000. -/
def Obligations.ValidOnlyByVerify : Prop :=
  ∀ (i : Instr) (s t : State), isTransaction i = false → exec i s = .next t →
    (t.valid = true ↔ i = .verify ∧ t.err = 0 ∧ t.regs.outCsum = 0x0000)

/-- R36 to R39: a completion that is not a DECODE without error has all four F_ flags 0. -/
def Obligations.FormatFlagsOnlyByDecode : Prop :=
  ∀ (i : Instr) (s t : State), isTransaction i = false → exec i s = .next t → (i ≠ .decode ∨ t.err ≠ 0) →
    t.fKind = false ∧ t.fLen = false ∧ t.fOver = false ∧ t.fAck = false

/-- R144: the flags of a DECODE without error: F_OVER implies F_LEN; with OUT_KIND = TAG_ACK, F_ACK = 0 exactly when
OUT_LEN = 0 and OUT_PLEN = 0, which gives F_LEN = 0; F_KIND implies F_ACK = 0. -/
def Obligations.DecodeFlagImplications : Prop :=
  ∀ s t : State, exec .decode s = .next t → t.err = 0 →
    (t.fOver = true → t.fLen = true) ∧
    (t.regs.outKind = 11 → (t.fAck = false ↔ t.regs.outLen = 0 ∧ t.regs.outPlen = 0)) ∧
    (t.regs.outKind = 11 → t.fAck = false → t.fLen = false) ∧
    (t.fKind = true → t.fAck = false)

/-- R131: ENCODE is deterministic in IN_KIND, IN_SEQ, IN_PLEN and the payload bytes: two states that agree on those get
the same outcome, and where it completes without error the same header bytes and the same results. -/
def Obligations.EncodeDependsOnOperandsOnly : Prop :=
  ∀ s s' : State, s'.regs.inKind = s.regs.inKind → s'.regs.inSeq = s.regs.inSeq → s'.regs.inPlen = s.regs.inPlen →
    (∀ k, k < s.regs.inPlen.toNat → s'.fbuf.read (6 + k) = s.fbuf.read (6 + k)) →
    (exec .encode s = .fault .uninitRead ∧ exec .encode s' = .fault .uninitRead) ∨
    (∃ t t', exec .encode s = .next t ∧ exec .encode s' = .next t' ∧
      t'.regs.status = t.regs.status ∧
      (t.err = 0 → t'.regs.outCsum = t.regs.outCsum ∧ t'.regs.outLen = t.regs.outLen ∧
        t'.regs.outFlen = t.regs.outFlen ∧ ∀ k, k < 6 → t'.fbuf.read k = t.fbuf.read k))

/-- R135, R99: after an ENCODE without error `FBUF[0..OUT_FLEN-1]` is a complete frame of the wire format. -/
def Obligations.EncodedFrameIsInFormat : Prop :=
  ∀ s t : State, exec .encode s = .next t → t.err = 0 →
    ∃ B : List Byte, B.length = t.regs.outFlen.toNat ∧ holdsAt t 0 B ∧ isFrame Config.params B = true

/-- R122: VERIFY of the frame an ENCODE without error produced (IN_FLEN = OUT_FLEN) gives OUT_CSUM = 0 and VALID = 1: on
this hardware's commands, and for every choice of the build parameters. -/
def Obligations.VerifyAcceptsEncodedFrame : Prop :=
  (∀ s t : State, exec .encode s = .next t → t.err = 0 →
    ∃ u, exec .verify { t with regs := { t.regs with inFlen := t.regs.outFlen } } = .next u ∧
      u.regs.outCsum = 0 ∧ u.valid = true) ∧
  (∀ (p : Params) (s t : State), encodeIn p s = .next t → t.err = 0 →
    ∃ u, verifyIn p.endian { t with regs := { t.regs with inFlen := t.regs.outFlen } } = .next u ∧
      u.regs.outCsum = 0 ∧ u.valid = true)

/-- R146: DECODE of the frame an ENCODE without error produced (IN_FLEN = OUT_FLEN) gives back the kind, the sequence
number, the length and the checksum, with all flags 0 and the payload unchanged: on this hardware's commands, and for every
choice of the build parameters. -/
def Obligations.DecodeInvertsEncode : Prop :=
  (∀ s t : State, exec .encode s = .next t → t.err = 0 →
    ∃ u, exec .decode { t with regs := { t.regs with inFlen := t.regs.outFlen } } = .next u ∧ decodesBack s t u) ∧
  (∀ (p : Params) (s t : State), encodeIn p s = .next t → t.err = 0 →
    ∃ u, decodeIn p { t with regs := { t.regs with inFlen := t.regs.outFlen } } = .next u ∧ decodesBack s t u)

/-! ### The machine -/

/-- A step on a host request is the decoded transaction's meaning, with the request taken from the inputs and a fault
recorded in the state (60_exceptions.md R190, R197). -/
def Obligations.StepRunsHostRequest : Prop :=
  ∀ (s : State) (w : Request) (rest : List Event), s.fault = none → s.inputs = .request w :: rest →
    step s = match exec (decodeRequest w) { s with inputs := rest } with
      | .next t => .next t
      | .fault r => .next { s with inputs := rest, fault := some r, rdata := none }
      | .refused r => .refused r

/-- R87: while a command is pending, the engine's step performs the command in CMD, whole; with none pending the engine
has no step. -/
def Obligations.StepPerformsPendingCommand : Prop :=
  ∀ (s : State) (rest : List Event), s.fault = none →
    (s.inputs = .engine :: rest ∨ (s.inputs = [] ∧ rest = [])) →
    (s.pending = true → step s = match exec (decodeCommand s.regs.cmd) { s with inputs := rest } with
      | .next t => .next t
      | .fault r => .next { s with inputs := rest, fault := some r, rdata := none }
      | .refused r => .refused r) ∧
    (s.pending = false → step s = .next { s with inputs := rest })

/-- The instruction of an opcode-table row's word placed by `withFetchWord` is the one the very next step runs
(notes/assumptions/8.md, 14.md: the model's choice of where an instruction is placed). -/
def Obligations.PlacedInstructionRunsNext : Prop :=
  ∀ (s : State) (nbits w : Nat) (i : Instr), decodeTableWord nbits w = some i →
    ∃ u : State, step (s.withFetchWord nbits w) = settle u (exec i u) ∧ u.inputs = s.inputs ∧ u.fault = none ∧
      u.fbuf = s.fbuf ∧ u.rdata = s.rdata ∧
      (16 < nbits → u.regs = s.regs ∧ u.pending = s.pending) ∧
      (nbits ≤ 16 → u.regs = { s.regs with cmd := BitVec.ofNat 16 w, status := 0x0001 } ∧ u.pending = true)

/-- R210: `rst` gives the reset state from any state, pending command or not, faulted or not; a recorded fault is kept.
The queued inputs stay (notes/assumptions/12.md). -/
def Obligations.ResetInputResetsBlock : Prop :=
  ∀ (s : State) (rest : List Event), s.inputs = .rst :: rest →
    step s = .next { State.reset with inputs := rest, fault := s.fault }

/-- R213: the reset state: registers 0, nothing pending, every FBUF cell UNWRITTEN; every register address, the reserved
ones included, reads 0. -/
def Obligations.ResetStateAsSpecified : Prop :=
  (∀ r : Reg, State.reset.regs.get r = 0x0000) ∧ State.reset.pending = false ∧
  (∀ k, State.reset.fbuf.read k = none) ∧
  (∀ a : PortAddr, exec (.rdr a) State.reset = .next { State.reset with rdata := some 0x0000 })

/-- R190: a step whose meaning faults marks the state with the reason and leaves the block's registers, FBUF and pending
command as they were. From then on every step but `rst` answers that fault, no number of steps clears it, resets included,
and once the inputs are spent the run has ended with it (notes/assumptions/3.md). -/
def Obligations.ModelFaultRecordedForGood : Prop :=
  (∀ (s : State) (i : Instr) (r : Fault), nextAction s = .run i → exec i (consumeInput s) = .fault r →
    ∃ t, step s = .next t ∧ t.fault = some r ∧ t.regs = s.regs ∧ t.fbuf = s.fbuf ∧ t.pending = s.pending) ∧
  (∀ (s : State) (r : Fault), s.fault = some r →
    (s.inputs.head? ≠ some .rst → step s = .fault r) ∧
    (∀ n, Host.Core.run Sys2Proof.core n s = .fault r ∨
      ∃ t, Host.Core.run Sys2Proof.core n s = .next t ∧ t.fault = some r) ∧
    (∀ n, s.inputs.length < n → Host.Core.run Sys2Proof.core n s = .fault r))

/-- No step is ever refused: every word has a meaning (30_encoding.md R90). -/
def Obligations.StepNeverRefuses : Prop :=
  ∀ s : State, (∃ t, step s = .next t) ∨ (∃ r, s.fault = some r ∧ step s = .fault r)

/-- R204: when nothing is pending and the host drives nothing, the block does nothing and keeps all its state. -/
def Obligations.IdleKeepsState : Prop :=
  ∀ s : State, s.fault = none → s.pending = false → s.inputs = [] → step s = .next s

/-- R226: a quiescent run stays quiescent: with no transaction to come, nothing pending and no fault, every step answers a
next state in which the same holds. -/
def Obligations.QuiescentRunStaysQuiescent : Prop :=
  ∀ s : State, s.quiescent = true → ∃ t, step s = .next t ∧ t.quiescent = true

/-- The invariant holds at reset. -/
def Obligations.ResetMeetsStateInvariant : Prop := State.reset.Inv

/-- Every step keeps the invariant: FBUF's canonical form, pending = BUSY, BUSY alone in STATUS, unused bits 0, the known
error codes, the flag rules and the ranges of OUT_FLEN and OUT_PLEN. -/
def Obligations.StepKeepsStateInvariant : Prop := ∀ s t : State, s.Inv → step s = .next t → t.Inv

/-- R166: a WRB below 1006 makes its cell written with the byte, an ENCODE without error makes cells 0..5 written, a
written cell stays written until reset, and nothing else makes a cell written. -/
def Obligations.CellsWrittenExactlyByWrbAndEncode : Prop :=
  (∀ (s t : State) (a : PortAddr) (b : Byte), exec (.wrb a b) s = .next t → a.toNat < 1006 →
    t.fbuf.read a.toNat = some b) ∧
  (∀ s t : State, exec .encode s = .next t → t.err = 0 → ∀ k, k < 6 → t.fbuf.read k ≠ none) ∧
  (∀ (s t : State) (k : Nat), step s = .next t → nextAction s ≠ .reset →
    s.fbuf.read k ≠ none → t.fbuf.read k ≠ none) ∧
  (∀ (s t : State) (k : Nat), step s = .next t → s.fbuf.read k = none → t.fbuf.read k ≠ none →
    (∃ (a : PortAddr) (b : Byte), nextAction s = .run (.wrb a b) ∧ a.toNat = k ∧ k < 1006) ∨
    (nextAction s = .run .encode ∧ t.err = 0 ∧ k < 6))

/-- R31, R32: STATUS changes only when a command is issued (to 0x0001), when a command completes (BUSY 0, DONE 1, and with
an error code every flag 0), and at reset; so BUSY returns to 0 only through completion or reset. -/
def Obligations.StatusWrittenAtIssueCompletionReset : Prop :=
  ∀ s t : State, step s = .next t → t.regs.status ≠ s.regs.status →
    (nextAction s = .reset ∧ t.regs.status = 0x0000) ∨
    (∃ v, nextAction s = .run (.wrr 0 v) ∧ t.regs.status = 0x0001 ∧ t.regs.cmd = v ∧ t.pending = true) ∨
    (∃ i, nextAction s = .run i ∧ isTransaction i = false ∧ t.busy = false ∧ t.done = true ∧ t.pending = false ∧
      (t.err ≠ 0 → t.valid = false ∧ t.fKind = false ∧ t.fLen = false ∧ t.fOver = false ∧ t.fAck = false))

/-- R171, R220: a host that keeps its duty (only RDR STATUS while BUSY = 1) is never marked with
HAZARD_BUSY_ACCESS. -/
def Obligations.DutifulHostMeetsNoBusyHazard : Prop :=
  ∀ s t : State, s.fault = none → step s = .next t →
    (∀ w rest, s.inputs = .request w :: rest → hostMay s w) → t.fault ≠ some .hazardBusyAccess

/-- R101, R71: the transactions of `WRBUF i, b0, ..., bk`, driven while BUSY = 0, leave exactly those bytes in
`FBUF[i..i+k]`, every other cell and every register as before. -/
def Obligations.WrbufPlacesBytes : Prop :=
  ∀ (B : List Byte) (i : Nat) (s : State) (rest : List Event), s.fault = none → s.busy = false →
    i + B.length ≤ 1006 → s.inputs = hostEvents (wrBuf i B) ++ rest →
    ∃ t, Host.Core.run Sys2Proof.core B.length s = .next t ∧ holdsAt t i B ∧
      keepsCellsOutside i (i + B.length) s t ∧ t.regs = s.regs ∧ t.pending = s.pending ∧ t.fault = none ∧
      t.inputs = rest

/-- R72, R101, R170, R225: polling a pending command: every one of the `n` RDR STATUS before the engine's turn answers
0x0001 and changes nothing else; and where the engine's turn comes next, its step completes the command with DONE = 1, or
the run is marked UNINIT_READ. `n` is any number (LATENCY, notes/assumptions/2.md). -/
def Obligations.PollingSeesBusyThenDone : Prop :=
  ∀ (n : Nat) (s : State) (rest : List Event), s.Inv → s.fault = none → s.pending = true →
    s.inputs = List.replicate n (.request 0x0010000) ++ rest →
    (∀ j, j ≤ n → Host.Core.run Sys2Proof.core j s = .next
      { s with inputs := List.replicate (n - j) (.request 0x0010000) ++ rest,
               rdata := if j = 0 then s.rdata else some 0x0001 }) ∧
    (rest = [] ∨ rest.head? = some .engine →
      ∃ t u, Host.Core.run Sys2Proof.core n s = .next t ∧ step t = .next u ∧ u.inputs = rest.tail ∧
        (u.fault = some .uninitRead ∨
          (u.fault = none ∧ u.pending = false ∧ u.busy = false ∧ u.done = true)))

/-- R225, R212, R171: weak fairness: from every state that meets the invariant with a command pending and no fault, within
LATENCY steps (notes/assumptions/2.md) the run is at the engine's turn, registers and FBUF as they were, and the next step
performs the command (it completes with DONE = 1, or the run is marked UNINIT_READ); unless the host has broken its duty
with another transaction than RDR STATUS, which is marked, or an `rst` among the inputs abandons the command. -/
def Obligations.PendingCommandIsPerformed : Prop :=
  ∀ s : State, s.Inv → s.fault = none → s.pending = true →
    ∃ k t, k ≤ latency s.inputs ∧ Host.Core.run Sys2Proof.core k s = .next t ∧
      ((t.fault = none ∧ t.regs = s.regs ∧ t.fbuf = s.fbuf ∧ nextAction t = .run (decodeCommand s.regs.cmd) ∧
          ∃ u, step t = .next u ∧
            (u.fault = some .uninitRead ∨
              (u.fault = none ∧ u.pending = false ∧ u.busy = false ∧ u.done = true))) ∨
       (t.fault = some .hazardBusyAccess ∧
          ∃ w, .request w ∈ s.inputs ∧ decodeRequest w ≠ .rdr (regAddr .status)) ∨
       (.rst ∈ s.inputs ∧ t.fault = none ∧ nextAction t = .reset ∧ t.pending = true ∧
          ∃ u, step t = .next u ∧ u.pending = false ∧ u.done = false))
end

