-- ==== Sys2Proof/Laws/State.lean ====
section
/-! SUPPORT. One lemma per field and update of the state, and the register file's read-after-write laws. -/

namespace Sys2Proof.Machine

/-! ### The register file -/

@[simp] theorem RegFile.get_set_same (f : RegFile) (r : Reg) (v : Half) : (f.set r v).get r = v := by
  cases r <;> rfl

theorem RegFile.get_set_ne (f : RegFile) {r q : Reg} (v : Half) (h : q ≠ r) : (f.set r v).get q = f.get q := by
  cases r <;> cases q <;> first | rfl | exact absurd rfl h

theorem RegFile.get_set (f : RegFile) (r q : Reg) (v : Half) :
    (f.set r v).get q = if q = r then v else f.get q := by
  by_cases h : q = r
  · subst h; simp
  · simp [RegFile.get_set_ne f v h, h]

/-- Two register files with the same registers are the same. -/
theorem RegFile.ext_get {f g : RegFile} (h : ∀ r, f.get r = g.get r) : f = g := by
  obtain ⟨a0, a1, a2, a3, a4, a5, a6, a7, a8, a9, a10, a11⟩ := f
  obtain ⟨b0, b1, b2, b3, b4, b5, b6, b7, b8, b9, b10, b11⟩ := g
  have h0 := h .cmd
  have h1 := h .status
  have h2 := h .inKind
  have h3 := h .inSeq
  have h4 := h .inPlen
  have h5 := h .inFlen
  have h6 := h .outKind
  have h7 := h .outSeq
  have h8 := h .outCsum
  have h9 := h .outLen
  have h10 := h .outFlen
  have h11 := h .outPlen
  simp only [RegFile.get] at h0 h1 h2 h3 h4 h5 h6 h7 h8 h9 h10 h11
  simp [*]

@[simp] theorem RegFile.get_reset (r : Reg) : RegFile.reset.get r = 0 := by cases r <;> rfl

/-! ### `writeReg` -/

@[simp] theorem writeReg_regs (s : State) (r : Reg) (v : Half) :
    (s.writeReg r v).regs = s.regs.set r (v &&& usedBits r) := rfl
@[simp] theorem writeReg_fbuf (s : State) (r : Reg) (v : Half) : (s.writeReg r v).fbuf = s.fbuf := rfl
@[simp] theorem writeReg_pending (s : State) (r : Reg) (v : Half) : (s.writeReg r v).pending = s.pending := rfl
@[simp] theorem writeReg_fault (s : State) (r : Reg) (v : Half) : (s.writeReg r v).fault = s.fault := rfl
@[simp] theorem writeReg_inputs (s : State) (r : Reg) (v : Half) : (s.writeReg r v).inputs = s.inputs := rfl
@[simp] theorem writeReg_rdata (s : State) (r : Reg) (v : Half) : (s.writeReg r v).rdata = s.rdata := rfl

/-! ### `issue` -/

@[simp] theorem issue_regs (v : Half) (s : State) :
    (issue v s).regs = (s.regs.set .cmd v).set .status issueStatus := rfl
@[simp] theorem issue_fbuf (v : Half) (s : State) : (issue v s).fbuf = s.fbuf := rfl
@[simp] theorem issue_pending (v : Half) (s : State) : (issue v s).pending = true := rfl
@[simp] theorem issue_fault (v : Half) (s : State) : (issue v s).fault = s.fault := rfl
@[simp] theorem issue_inputs (v : Half) (s : State) : (issue v s).inputs = s.inputs := rfl
@[simp] theorem issue_rdata (v : Half) (s : State) : (issue v s).rdata = s.rdata := rfl

/-! ### `complete` and `raiseError` -/

@[simp] theorem complete_regs (c : ErrCode) (f : CompletionFlags) (s : State) :
    (complete c f s).regs = s.regs.set .status (completionStatus c f) := rfl
@[simp] theorem complete_fbuf (c : ErrCode) (f : CompletionFlags) (s : State) : (complete c f s).fbuf = s.fbuf := rfl
@[simp] theorem complete_pending (c : ErrCode) (f : CompletionFlags) (s : State) :
    (complete c f s).pending = false := rfl
@[simp] theorem complete_fault (c : ErrCode) (f : CompletionFlags) (s : State) :
    (complete c f s).fault = s.fault := rfl
@[simp] theorem complete_inputs (c : ErrCode) (f : CompletionFlags) (s : State) :
    (complete c f s).inputs = s.inputs := rfl
@[simp] theorem complete_rdata (c : ErrCode) (f : CompletionFlags) (s : State) :
    (complete c f s).rdata = s.rdata := rfl
@[simp] theorem raiseError_eq (c : ErrCode) (s : State) : raiseError c s = complete c noFlags s := rfl

/-! ### `recordFault`, `respond`, `applyReset` -/

@[simp] theorem recordFault_regs (r : Fault) (s : State) : (recordFault r s).regs = s.regs := rfl
@[simp] theorem recordFault_fbuf (r : Fault) (s : State) : (recordFault r s).fbuf = s.fbuf := rfl
@[simp] theorem recordFault_pending (r : Fault) (s : State) : (recordFault r s).pending = s.pending := rfl
@[simp] theorem recordFault_fault (r : Fault) (s : State) : (recordFault r s).fault = some r := rfl
@[simp] theorem recordFault_inputs (r : Fault) (s : State) : (recordFault r s).inputs = s.inputs := rfl
@[simp] theorem recordFault_rdata (r : Fault) (s : State) : (recordFault r s).rdata = none := rfl

@[simp] theorem respond_regs (v : Option Half) (s : State) : (respond v s).regs = s.regs := rfl
@[simp] theorem respond_fbuf (v : Option Half) (s : State) : (respond v s).fbuf = s.fbuf := rfl
@[simp] theorem respond_pending (v : Option Half) (s : State) : (respond v s).pending = s.pending := rfl
@[simp] theorem respond_fault (v : Option Half) (s : State) : (respond v s).fault = s.fault := rfl
@[simp] theorem respond_inputs (v : Option Half) (s : State) : (respond v s).inputs = s.inputs := rfl
@[simp] theorem respond_rdata (v : Option Half) (s : State) : (respond v s).rdata = v := rfl

@[simp] theorem applyReset_regs (s : State) : (applyReset s).regs = RegFile.reset := rfl
@[simp] theorem applyReset_fbuf (s : State) : (applyReset s).fbuf = [] := rfl
@[simp] theorem applyReset_pending (s : State) : (applyReset s).pending = false := rfl
@[simp] theorem applyReset_fault (s : State) : (applyReset s).fault = s.fault := rfl
@[simp] theorem applyReset_inputs (s : State) : (applyReset s).inputs = s.inputs := rfl
@[simp] theorem applyReset_rdata (s : State) : (applyReset s).rdata = none := rfl

/-! ### Configuration -/

@[simp] theorem header_eq : Config.header = 6 := rfl
@[simp] theorem payloadMax_eq : Config.payloadMax = 1000 := rfl
@[simp] theorem frameMax_eq : Config.frameMax = 1006 := rfl
@[simp] theorem fbufSize_eq : Config.fbufSize = 1006 := rfl
@[simp] theorem params_endian : Config.params.endian = .big := rfl
@[simp] theorem params_tagData : Config.params.tagData = 12 := rfl
@[simp] theorem params_tagAck : Config.params.tagAck = 11 := rfl

end Sys2Proof.Machine
end

