-- ==== Sys2Proof/Laws/Status.lean ====
section
/-! SUPPORT. The fields of STATUS after each of its writes: a completion's word, the issue word, and the states that hold
them. -/

namespace Sys2Proof.Machine

@[simp] theorem completionStatus_busy (c : ErrCode) (f : CompletionFlags) :
    (completionStatus c f).getLsbD 0 = false := by
  rcases f with ⟨_ | _, _ | _, _ | _, _ | _, _ | _⟩ <;> cases c <;> decide

@[simp] theorem completionStatus_done (c : ErrCode) (f : CompletionFlags) :
    (completionStatus c f).getLsbD 1 = true := by
  rcases f with ⟨_ | _, _ | _, _ | _, _ | _, _ | _⟩ <;> cases c <;> decide

@[simp] theorem completionStatus_valid (c : ErrCode) (f : CompletionFlags) :
    (completionStatus c f).getLsbD 2 = f.valid := by
  rcases f with ⟨_ | _, _ | _, _ | _, _ | _, _ | _⟩ <;> cases c <;> decide

@[simp] theorem completionStatus_err (c : ErrCode) (f : CompletionFlags) :
    (completionStatus c f).extractLsb' 4 4 = errValue c := by
  rcases f with ⟨_ | _, _ | _, _ | _, _ | _, _ | _⟩ <;> cases c <;> decide

@[simp] theorem completionStatus_fKind (c : ErrCode) (f : CompletionFlags) :
    (completionStatus c f).getLsbD 8 = f.fKind := by
  rcases f with ⟨_ | _, _ | _, _ | _, _ | _, _ | _⟩ <;> cases c <;> decide

@[simp] theorem completionStatus_fLen (c : ErrCode) (f : CompletionFlags) :
    (completionStatus c f).getLsbD 9 = f.fLen := by
  rcases f with ⟨_ | _, _ | _, _ | _, _ | _, _ | _⟩ <;> cases c <;> decide

@[simp] theorem completionStatus_fOver (c : ErrCode) (f : CompletionFlags) :
    (completionStatus c f).getLsbD 10 = f.fOver := by
  rcases f with ⟨_ | _, _ | _, _ | _, _ | _, _ | _⟩ <;> cases c <;> decide

@[simp] theorem completionStatus_fAck (c : ErrCode) (f : CompletionFlags) :
    (completionStatus c f).getLsbD 11 = f.fAck := by
  rcases f with ⟨_ | _, _ | _, _ | _, _ | _, _ | _⟩ <;> cases c <;> decide

/-- A completion sets no reserved STATUS bit (10_state.md R30). -/
@[simp] theorem completionStatus_unused (c : ErrCode) (f : CompletionFlags) :
    completionStatus c f &&& ~~~(usedBits .status) = 0 := by
  rcases f with ⟨_ | _, _ | _, _ | _, _ | _, _ | _⟩ <;> cases c <;> decide

/-- The STATUS words of the completions with no flag set. -/
theorem completionStatus_noFlags (c : ErrCode) :
    completionStatus c noFlags = 0x0002 + (errValue c).setWidth 16 * 16 := by
  cases c <;> decide

/-- The STATUS word of a VERIFY (40_checksum.md R121). -/
theorem completionStatus_verify (v : Bool) :
    completionStatus .none { noFlags with valid := v } = if v then 0x0006 else 0x0002 := by
  cases v <;> decide

@[simp] theorem busy_complete (c : ErrCode) (f : CompletionFlags) (s : State) : (complete c f s).busy = false :=
  completionStatus_busy c f
@[simp] theorem done_complete (c : ErrCode) (f : CompletionFlags) (s : State) : (complete c f s).done = true :=
  completionStatus_done c f
@[simp] theorem valid_complete (c : ErrCode) (f : CompletionFlags) (s : State) :
    (complete c f s).valid = f.valid :=
  completionStatus_valid c f
@[simp] theorem err_complete (c : ErrCode) (f : CompletionFlags) (s : State) : (complete c f s).err = errValue c :=
  completionStatus_err c f
@[simp] theorem fKind_complete (c : ErrCode) (f : CompletionFlags) (s : State) :
    (complete c f s).fKind = f.fKind :=
  completionStatus_fKind c f
@[simp] theorem fLen_complete (c : ErrCode) (f : CompletionFlags) (s : State) : (complete c f s).fLen = f.fLen :=
  completionStatus_fLen c f
@[simp] theorem fOver_complete (c : ErrCode) (f : CompletionFlags) (s : State) :
    (complete c f s).fOver = f.fOver :=
  completionStatus_fOver c f
@[simp] theorem fAck_complete (c : ErrCode) (f : CompletionFlags) (s : State) : (complete c f s).fAck = f.fAck :=
  completionStatus_fAck c f

@[simp] theorem busy_respond (v : Option Half) (s : State) : (respond v s).busy = s.busy := rfl
@[simp] theorem busy_recordFault (r : Fault) (s : State) : (recordFault r s).busy = s.busy := rfl
@[simp] theorem busy_issue (v : Half) (s : State) : (issue v s).busy = true := by
  simp [State.busy, RegFile.set, issueStatus]

theorem busy_writeReg (s : State) {r : Reg} (v : Half) (h : r ≠ .status) : (s.writeReg r v).busy = s.busy := by
  cases r <;> first | rfl | exact absurd rfl h

/-- The error code is 0 exactly for NONE (60_exceptions.md R181). -/
@[simp] theorem errValue_eq_zero (c : ErrCode) : errValue c = 0 ↔ c = .none := by cases c <;> decide

/-- Codes 6 to 15 are never produced (60_exceptions.md R181). -/
theorem errValue_le (c : ErrCode) : (errValue c).toNat ≤ 5 := by cases c <;> decide

/-! ### The flags of DECODE (41_framing.md R141), the parameters as numbers -/

@[simp] theorem decodeFlags_valid (p : Params) (k : Byte) (len n : Nat) : (decodeFlags p k len n).valid = false := rfl
@[simp] theorem decodeFlags_fKind (p : Params) (k : Byte) (len n : Nat) :
    (decodeFlags p k len n).fKind = (k != p.tagData && k != p.tagAck) := rfl
@[simp] theorem decodeFlags_fLen (p : Params) (k : Byte) (len n : Nat) :
    (decodeFlags p k len n).fLen = (len != n - 6) := rfl
@[simp] theorem decodeFlags_fOver (p : Params) (k : Byte) (len n : Nat) :
    (decodeFlags p k len n).fOver = decide (1000 < len) := rfl
@[simp] theorem decodeFlags_fAck (p : Params) (k : Byte) (len n : Nat) :
    (decodeFlags p k len n).fAck = (k == p.tagAck && (len != 0 || n != 6)) := rfl

/-! ### The command operands -/

theorem and_usedBits_full (v : Half) : v &&& 0xFFFF = v := by
  have : (0xFFFF : Half) = BitVec.allOnes 16 := rfl
  rw [this, BitVec.and_allOnes]

theorem readReg_inFlen (s : State) : opFlen s = s.regs.inFlen := and_usedBits_full _
theorem readReg_inPlen (s : State) : opPlen s = s.regs.inPlen := and_usedBits_full _

theorem low_byte_mask (v : Half) : (v &&& 0x00FF).extractLsb' 0 8 = v.extractLsb' 0 8 := by
  ext i hi
  simp only [BitVec.getElem_extractLsb', BitVec.getLsbD_and, Nat.zero_add]
  have h : (0x00FF : Half).getLsbD i = true := by
    have : ∀ j : Fin 8, (0x00FF : Half).getLsbD j = true := by decide
    exact this ⟨i, hi⟩
  rw [h, Bool.and_true]

theorem opKind_eq (s : State) : opKind s = s.regs.inKind.extractLsb' 0 8 := low_byte_mask _
theorem opSeq_eq (s : State) : opSeq s = s.regs.inSeq.extractLsb' 0 8 := low_byte_mask _

/-- The used bits of an 8-bit register are its low byte (10_state.md R27). -/
theorem and_low_byte (v : Half) : v &&& 0x00FF = (v.extractLsb' 0 8).setWidth 16 := by
  apply BitVec.eq_of_toNat_eq
  simp only [BitVec.toNat_and, BitVec.toNat_setWidth, BitVec.extractLsb'_toNat]
  have : (0x00FF : Half).toNat = 2 ^ 8 - 1 := rfl
  rw [this, Nat.and_two_pow_sub_one_eq_mod]
  simp only [Nat.shiftRight_zero]
  omega

end Sys2Proof.Machine
end

