-- ==== Sys2Proof/Laws/Checksum.lean ====
section
/-! SUPPORT. The checksum function: byte order, word formation over concatenation, the sum, and what a fold keeps. -/

namespace Sys2Proof.Machine

/-! ### Byte order -/

theorem get16_big_toNat (b0 b1 : Byte) : (get16 .big b0 b1).toNat = b0.toNat * 256 + b1.toNat := by
  have h0 := b0.isLt
  have h1 := b1.isLt
  simp only [get16, BitVec.toNat_append, Nat.shiftLeft_eq]
  rw [← Nat.shiftLeft_eq, ← Nat.shiftLeft_add_eq_or_of_lt h1, Nat.shiftLeft_eq]

theorem get16_little_toNat (b0 b1 : Byte) : (get16 .little b0 b1).toNat = b1.toNat * 256 + b0.toNat :=
  get16_big_toNat b1 b0

@[simp] theorem get16_zero (e : Endian) : get16 e 0 0 = 0 := by cases e <;> decide

/-- `get16` is the inverse of `put16` (00_scope.md R9). -/
theorem get16_put16 (e : Endian) (v : Half) : ∃ b0 b1, put16 e v = [b0, b1] ∧ get16 e b0 b1 = v := by
  have h : v.extractLsb' 8 8 ++ v.extractLsb' 0 8 = v := by
    apply BitVec.eq_of_toNat_eq
    have := get16_big_toNat (v.extractLsb' 8 8) (v.extractLsb' 0 8)
    simp only [get16] at this
    rw [this]
    have := v.isLt
    simp only [BitVec.extractLsb'_toNat, Nat.shiftRight_eq_div_pow]
    omega
  cases e with
  | big => exact ⟨_, _, rfl, h⟩
  | little => exact ⟨_, _, rfl, h⟩

@[simp] theorem put16_length (e : Endian) (v : Half) : (put16 e v).length = 2 := by cases e <;> rfl

@[simp] theorem frameHeader_length (e : Endian) (k q : Byte) (c l : Half) : (frameHeader e k q c l).length = 6 := by
  simp [frameHeader]

/-- Each LITTLE word is the BIG word of the same bytes, swapped (40_checksum.md R118). -/
theorem get16_little_eq_swap (b0 b1 : Byte) : get16 .little b0 b1 = swap16 (get16 .big b0 b1) := by
  apply BitVec.eq_of_toNat_eq
  have h0 := b0.isLt
  have h1 := b1.isLt
  have hs : (swap16 (get16 .big b0 b1)).toNat = _ :=
    get16_big_toNat ((get16 .big b0 b1).extractLsb' 0 8) ((get16 .big b0 b1).extractLsb' 8 8)
  rw [hs, get16_little_toNat]
  simp only [BitVec.extractLsb'_toNat, Nat.shiftRight_eq_div_pow, get16_big_toNat]
  omega

/-! ### Words and sums -/

@[simp] theorem wordSum_nil : wordSum [] = 0 := rfl
@[simp] theorem wordSum_cons (w : Half) (ws : List Half) : wordSum (w :: ws) = w.toNat + wordSum ws := rfl

theorem wordSum_append (ws ws' : List Half) : wordSum (ws ++ ws') = wordSum ws + wordSum ws' := by
  induction ws with
  | nil => simp
  | cons w ws ih => simp [ih]; omega

@[simp] theorem words_nil (e : Endian) : words e [] = [] := rfl
@[simp] theorem words_cons_cons (e : Endian) (b0 b1 : Byte) (B : List Byte) :
    words e (b0 :: b1 :: B) = get16 e b0 b1 :: words e B := by rw [words]

theorem words_single (e : Endian) (b : Byte) : words e [b] = [get16 e b 0] := by rw [words]

/-- The words of a sequence whose first part has even length are the words of the two parts. -/
theorem words_append {A : List Byte} (e : Endian) (h : A.length % 2 = 0) (B : List Byte) :
    words e (A ++ B) = words e A ++ words e B := by
  match A with
  | [] => simp
  | [_] => simp at h
  | a0 :: a1 :: A =>
    have : A.length % 2 = 0 := by simp only [List.length_cons] at h; omega
    simp [words_append e this B]

/-- A word of a byte sequence is below 0x10000, so a sum of `n` words is at most `n * 0xFFFF`. -/
theorem wordSum_le (ws : List Half) : wordSum ws ≤ ws.length * 0xFFFF := by
  induction ws with
  | nil => simp
  | cons w ws ih =>
    have := w.isLt
    simp only [wordSum_cons, List.length_cons]
    omega

theorem get16_toNat_eq_zero (e : Endian) (b0 b1 : Byte) : (get16 e b0 b1).toNat = 0 ↔ b0 = 0 ∧ b1 = 0 := by
  have z : ∀ b : Byte, b = 0 ↔ b.toNat = 0 := fun b =>
    ⟨fun h => by simp [h], fun h => BitVec.eq_of_toNat_eq (by simpa using h)⟩
  rw [z b0, z b1]
  cases e
  · rw [get16_big_toNat]; omega
  · rw [get16_little_toNat]; omega

/-! ### The fold -/

/-- A round of end-around carry keeps the sum modulo 0xFFFF (40_checksum.md R113, step 1). -/
theorem foldRounds_mod (n S : Nat) : foldRounds n S % 0xFFFF = S % 0xFFFF := by
  induction n generalizing S with
  | zero => rfl
  | succ n ih =>
    rw [foldRounds]
    split
    · rw [ih]; omega
    · rfl

/-- A round keeps the sum positive (40_checksum.md R113, step 2). -/
theorem foldRounds_pos (n : Nat) {S : Nat} (h : 0 < S) : 0 < foldRounds n S := by
  induction n generalizing S with
  | zero => exact h
  | succ n ih =>
    rw [foldRounds]
    split
    · exact ih (by omega)
    · exact h

/-- Enough rounds end below 0x10000, since each strictly decreases the sum (40_checksum.md R113, step 3). -/
theorem foldRounds_le {n S : Nat} (h : S ≤ n + 0xFFFF) : foldRounds n S ≤ 0xFFFF := by
  induction n generalizing S with
  | zero => simpa [foldRounds] using h
  | succ n ih =>
    rw [foldRounds]
    split
    · exact ih (by omega)
    · omega

theorem fold_mod (S : Nat) : fold S % 0xFFFF = S % 0xFFFF := foldRounds_mod S S
theorem fold_pos {S : Nat} (h : 0 < S) : 0 < fold S := foldRounds_pos S h
theorem fold_le (S : Nat) : fold S ≤ 0xFFFF := foldRounds_le (by omega)
@[simp] theorem fold_zero : fold 0 = 0 := rfl

/-- Only the sum 0 folds to 0 (40_checksum.md R113, step 2). -/
theorem fold_eq_zero (S : Nat) : fold S = 0 ↔ S = 0 := by
  constructor
  · intro h
    by_contra hne
    have := fold_pos (Nat.pos_of_ne_zero hne)
    omega
  · rintro rfl
    rfl

/-- Sums that are both zero or both positive, and congruent modulo 0xFFFF, have the same fold. -/
theorem fold_congr {S T : Nat} (h : S % 0xFFFF = T % 0xFFFF) (hz : S = 0 ↔ T = 0) : fold S = fold T := by
  rcases Nat.eq_zero_or_pos S with hS | hS
  · rw [hz.1 hS, hS]
  · have hT : 0 < T := Nat.pos_of_ne_zero fun h' => by have := hz.2 h'; omega
    have h1 := fold_mod S
    have h2 := fold_mod T
    have h3 := fold_pos hS
    have h4 := fold_pos hT
    have h5 := fold_le S
    have h6 := fold_le T
    omega

/-- The checksum as a number: 0xFFFF less the fold (40_checksum.md R112). -/
theorem checksum_toNat (e : Endian) (B : List Byte) :
    (checksum e B).toNat = 0xFFFF - fold (wordSum (words e B)) := by
  have := fold_le (wordSum (words e B))
  rw [checksum, BitVec.toNat_not, BitVec.toNat_ofNat, Nat.mod_eq_of_lt (by omega)]

end Sys2Proof.Machine
end

