-- ==== Sys2Proof/Laws/Encoding.lean ====
section
/-! SUPPORT. The fields of the words the encoder builds, and the words rebuilt from their fields. -/

namespace Sys2Proof

@[simp] theorem reqWe_requestWord (we sp : Bool) (a : PortAddr) (v : Half) : reqWe (requestWord we sp a v) = we := by
  simp only [reqWe, requestWord, BitVec.getLsbD_append]
  cases we <;> simp

@[simp] theorem reqSpace_requestWord (we sp : Bool) (a : PortAddr) (v : Half) :
    reqSpace (requestWord we sp a v) = sp := by
  simp only [reqSpace, requestWord, BitVec.getLsbD_append]
  cases sp <;> simp

@[simp] theorem reqAddr_requestWord (we sp : Bool) (a : PortAddr) (v : Half) :
    reqAddr (requestWord we sp a v) = a := by
  apply BitVec.eq_of_getLsbD_eq
  intro i hi
  simp only [reqAddr, requestWord, BitVec.getLsbD_extractLsb', BitVec.getLsbD_append]
  simp [hi]

@[simp] theorem reqWdata_requestWord (we sp : Bool) (a : PortAddr) (v : Half) :
    reqWdata (requestWord we sp a v) = v := by
  apply BitVec.eq_of_getLsbD_eq
  intro i hi
  simp only [reqWdata, requestWord, BitVec.getLsbD_extractLsb', BitVec.getLsbD_append]
  simp [hi]

@[simp] theorem cmdOp_commandWord (op : BitVec 3) (r : BitVec 13) : cmdOp (commandWord op r) = op := by
  apply BitVec.eq_of_getLsbD_eq
  intro i hi
  simp only [cmdOp, commandWord, BitVec.getLsbD_extractLsb', BitVec.getLsbD_append]
  simp [hi]

@[simp] theorem cmdRsvd_commandWord (op : BitVec 3) (r : BitVec 13) : cmdRsvd (commandWord op r) = r := by
  apply BitVec.eq_of_getLsbD_eq
  intro i hi
  simp only [cmdRsvd, commandWord, BitVec.getLsbD_extractLsb', BitVec.getLsbD_append]
  simp [hi]

/-- A request word is made of its four fields (30_encoding.md R80). -/
theorem requestWord_fields (w : Request) : requestWord (reqWe w) (reqSpace w) (reqAddr w) (reqWdata w) = w := by
  apply BitVec.eq_of_getLsbD_eq
  intro i hi
  simp only [requestWord, reqWe, reqSpace, reqAddr, reqWdata, BitVec.getLsbD_append, BitVec.getLsbD_extractLsb',
    BitVec.getLsbD_ofBool]
  by_cases h1 : i < 16
  · simp [h1]
  · by_cases h2 : i - 16 < 10
    · have : 16 + (i - 16) = i := by omega
      simp [h1, h2, this]
    · rw [if_neg h1, if_neg h2]
      by_cases h3 : i = 26
      · subst h3; simp
      · have : i = 27 := by omega
        subst this; simp

/-- A command word is made of its two fields (30_encoding.md R84). -/
theorem commandWord_fields (v : Half) : commandWord (cmdOp v) (cmdRsvd v) = v := by
  apply BitVec.eq_of_getLsbD_eq
  intro i hi
  simp only [commandWord, cmdOp, cmdRsvd, BitVec.getLsbD_append, BitVec.getLsbD_extractLsb']
  split
  · simp [*]
  · have h1 : i - 3 < 13 := by omega
    have h2 : 3 + (i - 3) = i := by omega
    simp [h1, h2]

theorem cmdOp_toNat (v : Half) : (cmdOp v).toNat = v.toNat % 8 := by
  simp [cmdOp, BitVec.extractLsb'_toNat]

theorem cmdRsvd_toNat (v : Half) : (cmdRsvd v).toNat = v.toNat / 8 := by
  have := v.isLt
  simp only [cmdRsvd, BitVec.extractLsb'_toNat, Nat.shiftRight_eq_div_pow]
  omega

end Sys2Proof
end

