-- ==== Sys2Proof/Laws/Memory.lean ====
section
/-! SUPPORT. FBUF: read after write, the canonical form kept by every operation, two canonical memories with the same
cells are equal, and what the range operations do cell by cell. -/

namespace Sys2Proof.Machine

@[simp] theorem Memory.read_nil (i : Nat) : Memory.read [] i = none := rfl

theorem Memory.read_cons (a : Nat) (b : Byte) (m : Memory) (i : Nat) :
    Memory.read ((a, b) :: m) i = if a = i then some b else Memory.read m i := rfl

/-- A read after a write, at any cell. -/
theorem Memory.read_write (m : Memory) (i j : Nat) (b : Byte) :
    (m.write i b).read j = if j = i then some b else m.read j := by
  induction m with
  | nil => simp [Memory.write, Memory.read_cons, eq_comm]
  | cons c m ih =>
    obtain ⟨a, c⟩ := c
    simp only [Memory.write]
    split
    · simp only [Memory.read_cons, eq_comm (a := i)]
    · split
      · subst_vars
        simp only [Memory.read_cons, eq_comm (b := j)]
        split <;> rfl
      · simp only [Memory.read_cons, ih]
        by_cases h : j = i
        · subst h
          have : a ≠ j := by omega
          simp [this]
        · simp [h]

@[simp] theorem Memory.read_write_same (m : Memory) (i : Nat) (b : Byte) : (m.write i b).read i = some b := by
  simp [Memory.read_write]

theorem Memory.read_write_ne (m : Memory) {i j : Nat} (b : Byte) (h : j ≠ i) : (m.write i b).read j = m.read j := by
  simp [Memory.read_write, h]

/-- Writing the same byte to a cell twice is writing it once. -/
theorem Memory.write_write_same (m : Memory) (i : Nat) (b : Byte) : (m.write i b).write i b = m.write i b := by
  induction m with
  | nil => simp [Memory.write]
  | cons c m ih =>
    obtain ⟨a, c⟩ := c
    simp only [Memory.write]
    split
    · simp [Memory.write]
    · split
      · simp [Memory.write]
      · simp [Memory.write, *]

/-! ### The canonical form -/

theorem Memory.risingFrom_write {m : Memory} {lo i : Nat} (b : Byte) (h : m.risingFrom lo = true) (hi : lo ≤ i) :
    (m.write i b).risingFrom lo = true := by
  induction m generalizing lo with
  | nil => simp [Memory.write, Memory.risingFrom, hi]
  | cons c m ih =>
    obtain ⟨a, c⟩ := c
    simp only [Memory.risingFrom, Bool.and_eq_true, decide_eq_true_eq] at h
    simp only [Memory.write]
    split
    · simp only [Memory.risingFrom, Bool.and_eq_true, decide_eq_true_eq]
      exact ⟨hi, by omega, h.2⟩
    · split
      · subst_vars
        simpa [Memory.risingFrom] using h
      · simp only [Memory.risingFrom, Bool.and_eq_true, decide_eq_true_eq]
        exact ⟨h.1, ih h.2 (by omega)⟩

theorem Memory.bounded_write {m : Memory} {i N : Nat} (b : Byte) (h : m.all (fun c => decide (c.1 < N)) = true)
    (hi : i < N) : (m.write i b).all (fun c => decide (c.1 < N)) = true := by
  induction m with
  | nil => simp [Memory.write, hi]
  | cons c m ih =>
    obtain ⟨a, c⟩ := c
    simp only [List.all_cons, Bool.and_eq_true, decide_eq_true_eq] at h
    simp only [Memory.write]
    split
    · simp [hi, h.1]; simpa using h.2
    · split
      · simp [hi]; simpa using h.2
      · simp [h.1]; simpa using ih h.2

@[simp] theorem Memory.wf_nil : Memory.wf [] = true := rfl

/-- A write inside FBUF keeps the canonical form. -/
theorem Memory.wf_write {m : Memory} {i : Nat} (b : Byte) (h : m.wf = true) (hi : i < 1006) :
    (m.write i b).wf = true := by
  simp only [Memory.wf, fbufSize_eq, Bool.and_eq_true] at h ⊢
  exact ⟨Memory.risingFrom_write b h.1 (Nat.zero_le i), Memory.bounded_write b h.2 hi⟩

/-- A range write inside FBUF keeps the canonical form. -/
theorem Memory.wf_writeRange {m : Memory} {i : Nat} (B : List Byte) (h : m.wf = true) (hi : i + B.length ≤ 1006) :
    (m.writeRange i B).wf = true := by
  induction B generalizing m i with
  | nil => simpa [Memory.writeRange] using h
  | cons b B ih =>
    simp only [List.length_cons] at hi
    exact ih (Memory.wf_write b h (by omega)) (by omega)

theorem Memory.read_below {m : Memory} {lo i : Nat} (h : m.risingFrom lo = true) (hi : i < lo) : m.read i = none := by
  induction m generalizing lo with
  | nil => rfl
  | cons c m ih =>
    obtain ⟨a, c⟩ := c
    simp only [Memory.risingFrom, Bool.and_eq_true, decide_eq_true_eq] at h
    rw [Memory.read_cons, if_neg (by omega)]
    exact ih h.2 (by omega)

theorem Memory.ext_of_risingFrom {m m' : Memory} {lo : Nat} (h : m.risingFrom lo = true)
    (h' : m'.risingFrom lo = true) (hr : ∀ i, m.read i = m'.read i) : m = m' := by
  induction m generalizing m' lo with
  | nil =>
    cases m' with
    | nil => rfl
    | cons c m' =>
      obtain ⟨a, b⟩ := c
      have := hr a
      simp [Memory.read_cons] at this
  | cons c m ih =>
    obtain ⟨a, b⟩ := c
    cases m' with
    | nil => have := hr a; simp [Memory.read_cons] at this
    | cons c' m' =>
      obtain ⟨a', b'⟩ := c'
      simp only [Memory.risingFrom, Bool.and_eq_true, decide_eq_true_eq] at h h'
      have ha : a = a' := by
        by_contra hne
        have h1 := hr a
        have h2 := hr a'
        simp only [Memory.read_cons, if_true] at h1 h2
        rcases Nat.lt_or_gt_of_ne hne with hlt | hgt
        · rw [if_neg (by omega), Memory.read_below h'.2 (by omega)] at h1
          cases h1
        · rw [if_neg (by omega), Memory.read_below h.2 (by omega)] at h2
          cases h2
      subst ha
      have hb : b = b' := by have := hr a; simpa [Memory.read_cons] using this
      subst hb
      have : m = m' := by
        apply ih h.2 h'.2
        intro i
        by_cases hi : a = i
        · subst hi
          rw [Memory.read_below h.2 (by omega), Memory.read_below h'.2 (by omega)]
        · have := hr i
          simpa [Memory.read_cons, hi] using this
      rw [this]

/-- Two canonical memories whose cells agree are equal data. -/
theorem Memory.ext_of_wf {m m' : Memory} (h : m.wf = true) (h' : m'.wf = true) (hr : ∀ i, m.read i = m'.read i) :
    m = m' := by
  simp only [Memory.wf, Bool.and_eq_true] at h h'
  exact Memory.ext_of_risingFrom h.1 h'.1 hr

/-! ### Ranges -/

/-- MemRead gives the bytes `B` exactly when `B` has the length asked for and every cell holds its byte. -/
theorem Memory.readRange_eq_some {m : Memory} {i n : Nat} {B : List Byte} :
    m.readRange i n = some B ↔ B.length = n ∧ ∀ k, k < n → m.read (i + k) = B[k]? := by
  induction n generalizing i B with
  | zero => simp [Memory.readRange, eq_comm (a := ([] : List Byte))]
  | succ n ih =>
    simp only [Memory.readRange]
    constructor
    · intro h
      split at h
      · rename_i b bs hb hbs
        cases h
        obtain ⟨hl, hk⟩ := ih.1 hbs
        refine ⟨by simp [hl], fun k hkn => ?_⟩
        cases k with
        | zero => simpa using hb
        | succ k =>
          have := hk k (by omega)
          rw [show i + 1 + k = i + (k + 1) from by omega] at this
          simpa using this
      · cases h
    · rintro ⟨hl, hk⟩
      cases B with
      | nil => simp at hl
      | cons b B =>
        have h0 : m.read i = some b := by simpa using hk 0 (by omega)
        have h1 : m.readRange (i + 1) n = some B := by
          refine ih.2 ⟨by simpa using hl, fun k hkn => ?_⟩
          have := hk (k + 1) (by omega)
          rw [show i + (k + 1) = i + 1 + k from by omega] at this
          simpa using this
        simp [h0, h1]

/-- MemRead gives nothing exactly when some cell of the range is UNWRITTEN. -/
theorem Memory.readRange_eq_none {m : Memory} {i n : Nat} :
    m.readRange i n = none ↔ ∃ k, k < n ∧ m.read (i + k) = none := by
  induction n generalizing i with
  | zero => simp [Memory.readRange]
  | succ n ih =>
    simp only [Memory.readRange]
    constructor
    · intro h
      split at h
      · cases h
      · rename_i hno
        cases hb : m.read i with
        | none => exact ⟨0, by omega, by simpa using hb⟩
        | some b =>
          cases hbs : m.readRange (i + 1) n with
          | none =>
            obtain ⟨k, hk, hk'⟩ := ih.1 hbs
            exact ⟨k + 1, by omega, by rw [show i + (k + 1) = i + 1 + k from by omega]; exact hk'⟩
          | some bs => exact absurd hbs (hno b bs hb)
    · rintro ⟨k, hk, hk'⟩
      cases k with
      | zero => simp [show m.read i = none by simpa using hk']
      | succ k =>
        have : m.readRange (i + 1) n = none :=
          ih.2 ⟨k, by omega, by rw [show i + 1 + k = i + (k + 1) from by omega]; exact hk'⟩
        simp [this]

/-- MemRead depends on the cells of its range only. -/
theorem Memory.readRange_congr {m m' : Memory} {i n : Nat} (h : ∀ k, k < n → m'.read (i + k) = m.read (i + k)) :
    m'.readRange i n = m.readRange i n := by
  cases hr : m.readRange i n with
  | none =>
    rw [Memory.readRange_eq_none] at hr ⊢
    obtain ⟨k, hk, hk'⟩ := hr
    exact ⟨k, hk, by rw [h k hk, hk']⟩
  | some B =>
    rw [Memory.readRange_eq_some] at hr ⊢
    exact ⟨hr.1, fun k hk => by rw [h k hk, hr.2 k hk]⟩

/-- A cell after a MemWrite: the written byte inside the range, as before outside it. -/
theorem Memory.read_writeRange (m : Memory) (i : Nat) (B : List Byte) (j : Nat) :
    (m.writeRange i B).read j = if i ≤ j ∧ j < i + B.length then B[j - i]? else m.read j := by
  induction B generalizing m i with
  | nil => rw [Memory.writeRange, if_neg (by simp only [List.length_nil]; omega)]
  | cons b B ih =>
    rw [Memory.writeRange, ih]
    by_cases h1 : i + 1 ≤ j ∧ j < i + 1 + B.length
    · rw [if_pos h1, if_pos (by simp only [List.length_cons]; omega)]
      have : j - i = (j - (i + 1)) + 1 := by omega
      rw [this, List.getElem?_cons_succ]
    · rw [if_neg h1, Memory.read_write]
      by_cases h2 : j = i
      · subst h2; simp
      · rw [if_neg h2, if_neg (by simp only [List.length_cons]; omega)]

end Sys2Proof.Machine
end

