-- ==== Sys2Proof/Laws/Meanings.lean ====
section
/-! SUPPORT. What each meaning can do, said once: one inversion lemma per meaning, then one for all the commands and one
for all the transactions. -/

namespace Sys2Proof.Machine

/-! ### Transactions -/

theorem execRdr_cases (a : PortAddr) (s : State) :
    (s.busy = true ∧ regOperand a ≠ some .status ∧ execRdr a s = .fault .hazardBusyAccess) ∨
    ((s.busy = false ∨ regOperand a = some .status) ∧
      execRdr a s = .next (respond (some (registerResponse a s)) s)) := by
  by_cases hb : s.busy = true <;> by_cases ho : regOperand a = some .status <;> simp [execRdr, hb, ho]

theorem execWrr_cases (a : PortAddr) (v : Half) (s : State) :
    (s.busy = true ∧ execWrr a v s = .fault .hazardBusyAccess) ∨
    (s.busy = false ∧ execWrr a v s = .next (respond none (registerWrite a v s))) := by
  by_cases hb : s.busy = true <;> simp [execWrr, hb]

theorem execRdb_cases (i : PortAddr) (s : State) :
    (s.busy = true ∧ execRdb i s = .fault .hazardBusyAccess) ∨
    (s.busy = false ∧ 1006 ≤ i.toNat ∧ execRdb i s = .next (respond (some 0) s)) ∨
    (s.busy = false ∧ i.toNat < 1006 ∧ s.fbuf.read i.toNat = none ∧ execRdb i s = .fault .uninitRead) ∨
    (∃ b, s.busy = false ∧ i.toNat < 1006 ∧ s.fbuf.read i.toNat = some b ∧
      execRdb i s = .next (respond (some (b.setWidth 16)) s)) := by
  by_cases hb : s.busy = true
  · simp [execRdb, hb]
  · by_cases hi : i.toNat < 1006
    · cases hr : s.fbuf.read i.toNat <;> simp [execRdb, hb, fbufOperand, hi, hr]
    · simp [execRdb, hb, fbufOperand, hi]; omega

theorem execWrb_cases (i : PortAddr) (b : Byte) (s : State) :
    (s.busy = true ∧ execWrb i b s = .fault .hazardBusyAccess) ∨
    (s.busy = false ∧ 1006 ≤ i.toNat ∧ execWrb i b s = .next (respond none s)) ∨
    (s.busy = false ∧ i.toNat < 1006 ∧
      execWrb i b s = .next (respond none { s with fbuf := s.fbuf.write i.toNat b })) := by
  by_cases hb : s.busy = true
  · simp [execWrb, hb]
  · by_cases hi : i.toNat < 1006
    · simp [execWrb, hb, fbufOperand, hi]
    · simp [execWrb, hb, fbufOperand, hi]; omega

/-- What a register write can do: issue a command, store in one of the four input registers, or nothing. -/
theorem registerWrite_cases (a : PortAddr) (v : Half) (s : State) :
    (regOperand a = some .cmd ∧ registerWrite a v s = issue v s) ∨
    (∃ r, (r = .inKind ∨ r = .inSeq ∨ r = .inPlen ∨ r = .inFlen) ∧ regOperand a = some r ∧
      registerWrite a v s = s.writeReg r v) ∨
    ((∀ r, regOperand a = some r → r = .status ∨ r.isOutput = true) ∧ registerWrite a v s = s) := by
  rw [registerWrite]
  cases h : regOperand a with
  | none => simp
  | some r => cases r <;> simp [Reg.isOutput]

/-- The register an address names, by its number (30_encoding.md R82). -/
theorem regOperand_eq_some (a : PortAddr) (r : Reg) : regOperand a = some r ↔ a.toNat = regNumber r := by
  have h : ∀ k : Fin 1024, ∀ r : Fin 12,
      (regOperand (BitVec.ofFin k) = regOfNumber r ↔ k.val = r.val) := by
    intro k r
    have hk : (BitVec.ofFin k : PortAddr).toNat = k.val := rfl
    have h1 : (BitVec.ofFin k : PortAddr).extractLsb' 4 6 = 0 ↔ k.val < 16 := by
      have hlt := k.isLt
      constructor
      · intro h
        have := congrArg BitVec.toNat h
        rw [BitVec.extractLsb'_toNat, hk, Nat.shiftRight_eq_div_pow] at this
        simp at this
        omega
      · intro h
        apply BitVec.eq_of_toNat_eq
        rw [BitVec.extractLsb'_toNat, hk, Nat.shiftRight_eq_div_pow]
        simp
        omega
    have h2 : ((BitVec.ofFin k : PortAddr).extractLsb' 0 4).toNat = k.val % 16 := by
      rw [BitVec.extractLsb'_toNat, hk]; rfl
    rw [regOperand]
    by_cases hlt : k.val < 16
    · rw [if_pos (h1.2 hlt), h2, Nat.mod_eq_of_lt hlt]
      have hd : ∀ x : Fin 16, ∀ y : Fin 12, (regOfNumber x = regOfNumber y ↔ x.val = y.val) := by decide
      exact hd ⟨k.val, hlt⟩ r
    · rw [if_neg (fun h => hlt (h1.1 h))]
      have hd : ∀ y : Fin 12, regOfNumber y ≠ none := by decide
      constructor
      · intro h; exact absurd h.symm (hd r)
      · intro h; omega
  have hr : regOfNumber (regNumber r) = some r ∧ regNumber r < 12 := by cases r <;> decide
  have := h ⟨a.toNat, a.isLt⟩ ⟨regNumber r, hr.2⟩
  rw [← hr.1]
  exact this

theorem regOperand_eq_none (a : PortAddr) : regOperand a = none ↔ 12 ≤ a.toNat := by
  have hn : ∀ r, regNumber r < 12 := by intro r; cases r <;> decide
  constructor
  · intro h
    by_contra hlt
    have hd : ∀ x : Fin 12, ∃ r, regNumber r = x.val := by
      intro x
      have : ∀ y : Fin 12, ∃ r ∈ allRegs, regNumber r = y.val := by decide
      obtain ⟨r, -, hr⟩ := this x
      exact ⟨r, hr⟩
    obtain ⟨r, hr⟩ := hd ⟨a.toNat, by omega⟩
    have := (regOperand_eq_some a r).2 hr.symm
    rw [h] at this
    cases this
  · intro h
    cases ho : regOperand a with
    | none => rfl
    | some r =>
      have := (regOperand_eq_some a r).1 ho
      have := hn r
      omega

theorem registerResponse_of_reg {a : PortAddr} {s : State} {r : Reg} (h : a.toNat = regNumber r) :
    registerResponse a s = s.regs.get r &&& usedBits r := by
  rw [registerResponse, (regOperand_eq_some a r).2 h]; rfl

theorem registerResponse_reserved {a : PortAddr} {s : State} (h : 12 ≤ a.toNat) : registerResponse a s = 0 := by
  rw [registerResponse, (regOperand_eq_none a).2 h]

/-- A transaction that answers a next state gives a response and does one of four things: nothing, an issue, a store in
an input register, a store in an FBUF cell. -/
theorem transaction_cases {i : Instr} {s t : State} (hi : isTransaction i = true) (h : exec i s = .next t) :
    ∃ v u, t = respond v u ∧
      (u = s ∨
       (∃ a w, i = .wrr a w ∧ a.toNat = 0 ∧ s.busy = false ∧ u = issue w s) ∨
       (∃ a w r, i = .wrr a w ∧ (r = .inKind ∨ r = .inSeq ∨ r = .inPlen ∨ r = .inFlen) ∧ s.busy = false ∧
         a.toNat = regNumber r ∧ u = s.writeReg r w) ∨
       (∃ a b, i = .wrb a b ∧ s.busy = false ∧ a.toNat < 1006 ∧ u = { s with fbuf := s.fbuf.write a.toNat b })) := by
  cases i with
  | rdr a =>
    rcases execRdr_cases a s with ⟨-, -, he⟩ | ⟨-, he⟩ <;> rw [exec, he] at h <;> cases h
    exact ⟨_, s, rfl, .inl rfl⟩
  | wrr a w =>
    rcases execWrr_cases a w s with ⟨-, he⟩ | ⟨hb, he⟩ <;> rw [exec, he] at h <;> cases h
    rcases registerWrite_cases a w s with ⟨ho, hw⟩ | ⟨r, hr, ho, hw⟩ | ⟨-, hw⟩ <;> rw [hw]
    · exact ⟨_, _, rfl, .inr (.inl ⟨a, w, rfl, (regOperand_eq_some a .cmd).1 ho, hb, rfl⟩)⟩
    · exact ⟨_, _, rfl, .inr (.inr (.inl ⟨a, w, r, rfl, hr, hb, (regOperand_eq_some a r).1 ho, rfl⟩))⟩
    · exact ⟨_, _, rfl, .inl rfl⟩
  | rdb a =>
    rcases execRdb_cases a s with ⟨-, he⟩ | ⟨-, -, he⟩ | ⟨-, -, -, he⟩ | ⟨b, -, -, -, he⟩ <;>
      rw [exec, he] at h <;> cases h <;> exact ⟨_, s, rfl, .inl rfl⟩
  | wrb a b =>
    rcases execWrb_cases a b s with ⟨-, he⟩ | ⟨-, -, he⟩ | ⟨hb, hi, he⟩ <;> rw [exec, he] at h <;> cases h
    · exact ⟨_, s, rfl, .inl rfl⟩
    · exact ⟨_, _, rfl, .inr (.inr (.inr ⟨a, b, rfl, hb, hi, rfl⟩))⟩
  | nop => cases hi
  | cksum => cases hi
  | verify => cases hi
  | encode => cases hi
  | decode => cases hi
  | badCmd _ _ => cases hi

/-! ### The two register-writing updates of the framing commands -/

section

variable (p : Params) (e : Endian) (k q c0 c1 l0 l1 : Byte) (P : List Byte) (s : State)

theorem parseHeader_eq : parseHeader p k q c0 c1 l0 l1 s =
    complete .none (decodeFlags p k (get16 p.endian l0 l1).toNat (opFlen s).toNat)
      (((((s.writeReg .outKind (k.setWidth 16)).writeReg .outSeq (q.setWidth 16)).writeReg .outCsum
        (get16 p.endian c0 c1)).writeReg .outLen (get16 p.endian l0 l1)).writeReg .outPlen
          (BitVec.ofNat 16 ((opFlen s).toNat - Config.header))) := rfl

@[simp] theorem parseHeader_fbuf : (parseHeader p k q c0 c1 l0 l1 s).fbuf = s.fbuf := rfl
@[simp] theorem parseHeader_pending : (parseHeader p k q c0 c1 l0 l1 s).pending = false := rfl
@[simp] theorem parseHeader_fault : (parseHeader p k q c0 c1 l0 l1 s).fault = s.fault := rfl
@[simp] theorem parseHeader_inputs : (parseHeader p k q c0 c1 l0 l1 s).inputs = s.inputs := rfl
@[simp] theorem parseHeader_rdata : (parseHeader p k q c0 c1 l0 l1 s).rdata = s.rdata := rfl

/-- A register DECODE does not write. -/
theorem parseHeader_get {r : Reg} (h : r ∉ [Reg.status, .outKind, .outSeq, .outCsum, .outLen, .outPlen]) :
    (parseHeader p k q c0 c1 l0 l1 s).regs.get r = s.regs.get r := by
  simp only [List.mem_cons, List.not_mem_nil, or_false, not_or] at h
  obtain ⟨h1, h2, h3, h4, h5, h6⟩ := h
  simp only [parseHeader_eq, complete_regs, writeReg_regs]
  rw [RegFile.get_set_ne _ _ h1, RegFile.get_set_ne _ _ h6, RegFile.get_set_ne _ _ h5, RegFile.get_set_ne _ _ h4,
    RegFile.get_set_ne _ _ h3, RegFile.get_set_ne _ _ h2]

@[simp] theorem parseHeader_outKind : (parseHeader p k q c0 c1 l0 l1 s).regs.outKind = k.setWidth 16 &&& 0x00FF := rfl
@[simp] theorem parseHeader_outSeq : (parseHeader p k q c0 c1 l0 l1 s).regs.outSeq = q.setWidth 16 &&& 0x00FF := rfl
@[simp] theorem parseHeader_outCsum : (parseHeader p k q c0 c1 l0 l1 s).regs.outCsum = get16 p.endian c0 c1 :=
  and_usedBits_full _
@[simp] theorem parseHeader_outLen : (parseHeader p k q c0 c1 l0 l1 s).regs.outLen = get16 p.endian l0 l1 :=
  and_usedBits_full _
@[simp] theorem parseHeader_outPlen :
    (parseHeader p k q c0 c1 l0 l1 s).regs.outPlen = BitVec.ofNat 16 (s.regs.inFlen.toNat - 6) := by
  rw [← readReg_inFlen]; exact and_usedBits_full _

@[simp] theorem writeFrame_pending : (writeFrame e P s).pending = s.pending := rfl
@[simp] theorem writeFrame_fault : (writeFrame e P s).fault = s.fault := rfl
@[simp] theorem writeFrame_inputs : (writeFrame e P s).inputs = s.inputs := rfl
@[simp] theorem writeFrame_rdata : (writeFrame e P s).rdata = s.rdata := rfl

/-- A register ENCODE does not write but for STATUS. -/
theorem writeFrame_get {r : Reg} (h : r ∉ [Reg.outCsum, .outLen, .outFlen]) :
    (writeFrame e P s).regs.get r = s.regs.get r := by
  simp only [List.mem_cons, List.not_mem_nil, or_false, not_or] at h
  simp only [writeFrame, writeReg_regs]
  rw [RegFile.get_set_ne _ _ h.2.2, RegFile.get_set_ne _ _ h.2.1, RegFile.get_set_ne _ _ h.1]

@[simp] theorem writeFrame_outCsum :
    (writeFrame e P s).regs.outCsum = frameChecksum e (opKind s) (opSeq s) s.regs.inPlen P := by
  rw [← readReg_inPlen]; exact and_usedBits_full _
@[simp] theorem writeFrame_outLen : (writeFrame e P s).regs.outLen = s.regs.inPlen := by
  rw [← readReg_inPlen]; exact and_usedBits_full _
@[simp] theorem writeFrame_outFlen :
    (writeFrame e P s).regs.outFlen = BitVec.ofNat 16 (6 + s.regs.inPlen.toNat) := by
  rw [← readReg_inPlen]; exact and_usedBits_full _

/-- The cells after an ENCODE: the header in 0 to 5, as before elsewhere. -/
theorem writeFrame_read (j : Nat) : (writeFrame e P s).fbuf.read j =
    if j < 6 then (frameHeader e (opKind s) (opSeq s)
      (frameChecksum e (opKind s) (opSeq s) s.regs.inPlen P) s.regs.inPlen)[j]?
    else s.fbuf.read j := by
  rw [← readReg_inPlen]
  simp [writeFrame, Memory.read_writeRange]

end

/-- A byte zero-extended has no unused bits of an 8-bit register. -/
theorem setWidth_and_low_byte (b : Byte) : b.setWidth 16 &&& (0x00FF : Half) = b.setWidth 16 := by
  rw [and_low_byte]
  apply BitVec.eq_of_getLsbD_eq
  intro i _
  simp only [BitVec.getLsbD_setWidth, BitVec.getLsbD_extractLsb', Nat.zero_add]
  by_cases h8 : i < 8
  · simp [h8]
  · simp [h8, BitVec.getLsbD_of_ge b i (by omega)]

/-! ### The operands read from FBUF, cell by cell -/

theorem frameBytes_of_holdsAt {s : State} {B : List Byte} (hl : B.length = s.regs.inFlen.toNat) (h : holdsAt s 0 B) :
    frameBytes s = some B := by
  rw [frameBytes, readReg_inFlen]
  exact Memory.readRange_eq_some.2 ⟨hl, fun k hk => h k (by omega)⟩

theorem frameBytes_eq_none {s : State} :
    frameBytes s = none ↔ ∃ k, k < s.regs.inFlen.toNat ∧ s.fbuf.read k = none := by
  rw [frameBytes, readReg_inFlen, Memory.readRange_eq_none]
  simp

theorem payloadBytes_of_holdsAt {s : State} {B : List Byte} (hl : B.length = s.regs.inPlen.toNat)
    (h : holdsAt s 6 B) : payloadBytes s = some B := by
  rw [payloadBytes, readReg_inPlen]
  exact Memory.readRange_eq_some.2 ⟨hl, fun k hk => h k (by omega)⟩

theorem payloadBytes_eq_none {s : State} :
    payloadBytes s = none ↔ ∃ k, k < s.regs.inPlen.toNat ∧ s.fbuf.read (6 + k) = none := by
  rw [payloadBytes, readReg_inPlen, Memory.readRange_eq_none]
  rfl

theorem headerBytes_of_holdsAt {s : State} {B : List Byte} (hl : B.length = 6) (h : holdsAt s 0 B) :
    headerBytes s = some B :=
  Memory.readRange_eq_some.2 ⟨hl, fun k hk => h k (by rw [hl]; exact hk)⟩

theorem headerBytes_eq_none {s : State} : headerBytes s = none ↔ ∃ k, k < 6 ∧ s.fbuf.read k = none := by
  rw [headerBytes, Memory.readRange_eq_none]
  simp

@[simp] theorem frameOf_length (e : Endian) (k q : Byte) (l : Half) (P : List Byte) :
    (frameOf e k q l P).length = 6 + P.length := by
  simp [frameOf]

/-- After ENCODE the cells 0 to 5 + L hold the frame of its operands (41_framing.md R135). -/
theorem writeFrame_holds_frame {s : State} {e : Endian} {P : List Byte} (hP : payloadBytes s = some P) {k : Nat}
    (hk : k < 6 + P.length) :
    (writeFrame e P s).fbuf.read k = (frameOf e (opKind s) (opSeq s) s.regs.inPlen P)[k]? := by
  rw [payloadBytes, readReg_inPlen] at hP
  obtain ⟨hl, hr⟩ := Memory.readRange_eq_some.1 hP
  rw [writeFrame_read, frameOf]
  split
  · rw [List.getElem?_append_left (by simpa using by assumption)]
  · rw [List.getElem?_append_right (by simp; omega), frameHeader_length]
    have := hr (k - 6) (by omega)
    rw [← this, header_eq]
    congr 1
    omega

/-! ### Commands -/

theorem cksumIn_cases (e : Endian) (s : State) :
    (1006 < s.regs.inFlen.toNat ∧ cksumIn e s = .next (complete .range noFlags s)) ∨
    (s.regs.inFlen.toNat ≤ 1006 ∧ frameBytes s = none ∧ cksumIn e s = .fault .uninitRead) ∨
    (∃ B, s.regs.inFlen.toNat ≤ 1006 ∧ frameBytes s = some B ∧
      cksumIn e s = .next (complete .none noFlags (s.writeReg .outCsum (checksum e B)))) := by
  by_cases h : 1006 < s.regs.inFlen.toNat
  · simp [cksumIn, readReg_inFlen, h]
  · cases hB : frameBytes s <;> simp [cksumIn, readReg_inFlen, h, hB] <;> omega

theorem verifyIn_cases (e : Endian) (s : State) :
    (1006 < s.regs.inFlen.toNat ∧ verifyIn e s = .next (complete .range noFlags s)) ∨
    (s.regs.inFlen.toNat ≤ 1006 ∧ frameBytes s = none ∧ verifyIn e s = .fault .uninitRead) ∨
    (∃ B, s.regs.inFlen.toNat ≤ 1006 ∧ frameBytes s = some B ∧
      verifyIn e s = .next (complete .none { noFlags with valid := checksum e B == 0 }
        (s.writeReg .outCsum (checksum e B)))) := by
  by_cases h : 1006 < s.regs.inFlen.toNat
  · simp [verifyIn, readReg_inFlen, h]
  · cases hB : frameBytes s <;> simp [verifyIn, readReg_inFlen, h, hB] <;> omega

theorem encodeError_eq_none (p : Params) (k : Byte) (n : Nat) :
    encodeError p k n = .none ↔ n ≤ 1000 ∧ (k = p.tagData ∨ k = p.tagAck) ∧ (k = p.tagAck → n = 0) := by
  unfold encodeError
  split
  · rename_i h
    rw [payloadMax_eq] at h
    simp only [reduceCtorEq, false_iff]
    omega
  · rename_i h
    rw [payloadMax_eq] at h
    split
    · rename_i h1
      simp only [reduceCtorEq, false_iff]
      tauto
    · split
      · rename_i h1 h2
        simp only [reduceCtorEq, false_iff]
        tauto
      · rename_i h1 h2
        simp only [true_iff]
        exact ⟨by omega, by tauto, by tauto⟩

theorem encodeIn_cases (p : Params) (s : State) :
    (encodeError p (opKind s) s.regs.inPlen.toNat ≠ .none ∧
      encodeIn p s = .next (complete (encodeError p (opKind s) s.regs.inPlen.toNat) noFlags s)) ∨
    (encodeError p (opKind s) s.regs.inPlen.toNat = .none ∧ payloadBytes s = none ∧
      encodeIn p s = .fault .uninitRead) ∨
    (∃ P, encodeError p (opKind s) s.regs.inPlen.toNat = .none ∧ payloadBytes s = some P ∧
      encodeIn p s = .next (complete .none noFlags (writeFrame p.endian P s))) := by
  rw [encodeIn, readReg_inPlen]
  cases encodeError p (opKind s) s.regs.inPlen.toNat <;> simp
  cases payloadBytes s <;> simp

theorem decodeError_eq_none (n : Nat) : decodeError n = .none ↔ 6 ≤ n ∧ n ≤ 1006 := by
  unfold decodeError
  split
  · rename_i h
    rw [frameMax_eq] at h
    simp only [reduceCtorEq, false_iff]
    omega
  · rename_i h
    rw [frameMax_eq] at h
    split
    · rename_i h1
      rw [header_eq] at h1
      simp only [reduceCtorEq, false_iff]
      omega
    · rename_i h1
      rw [header_eq] at h1
      simp only [true_iff]
      omega

theorem decodeIn_cases (p : Params) (s : State) :
    (decodeError s.regs.inFlen.toNat ≠ .none ∧
      decodeIn p s = .next (complete (decodeError s.regs.inFlen.toNat) noFlags s)) ∨
    (decodeError s.regs.inFlen.toNat = .none ∧ headerBytes s = none ∧ decodeIn p s = .fault .uninitRead) ∨
    (∃ k q c0 c1 l0 l1, decodeError s.regs.inFlen.toNat = .none ∧ headerBytes s = some [k, q, c0, c1, l0, l1] ∧
      decodeIn p s = .next (parseHeader p k q c0 c1 l0 l1 s)) := by
  rw [decodeIn, readReg_inFlen]
  cases decodeError s.regs.inFlen.toNat <;> simp
  cases hh : headerBytes s with
  | none => simp
  | some h =>
    have hl : h.length = 6 := (Memory.readRange_eq_some.1 hh).1
    match h, hl with
    | [k, q, c0, c1, l0, l1], _ => simp

/-- An ENCODE without error: its operands passed every check, its payload was read, and it wrote the frame. -/
theorem encodeIn_no_error {p : Params} {s t : State} (h : encodeIn p s = .next t) (h0 : t.err = 0) :
    ∃ P, encodeError p (opKind s) s.regs.inPlen.toNat = .none ∧ payloadBytes s = some P ∧
      t = complete .none noFlags (writeFrame p.endian P s) ∧ P.length = s.regs.inPlen.toNat ∧
      s.regs.inPlen.toNat ≤ 1000 := by
  rcases encodeIn_cases p s with ⟨a1, he⟩ | ⟨a1, a2, he⟩ | ⟨P, a1, a2, he⟩ <;> rw [he] at h <;> cases h
  · rw [err_complete, errValue_eq_zero] at h0
    exact absurd h0 a1
  · have h2 := a2
    rw [payloadBytes, readReg_inPlen] at h2
    exact ⟨P, a1, a2, rfl, (Memory.readRange_eq_some.1 h2).1, ((encodeError_eq_none _ _ _).1 a1).1⟩

/-- Every command that answers a next state completes: with an error it changes STATUS and the pending command alone,
without one it may also write output registers and, for ENCODE, the cells 0 to 5. -/
theorem command_cases {i : Instr} {s t : State} (hi : isTransaction i = false) (h : exec i s = .next t) :
    ∃ c f u, t = complete c f u ∧ (c ≠ .none → f = noFlags ∧ u = s) ∧
      (∀ r : Reg, r.isOutput = false → u.regs.get r = s.regs.get r) ∧
      u.fault = s.fault ∧ u.inputs = s.inputs ∧ u.rdata = s.rdata ∧
      (f.valid = true → i = .verify) ∧
      ((f.fKind = true ∨ f.fLen = true ∨ f.fOver = true ∨ f.fAck = true) → i = .decode) ∧
      ((i ≠ .encode ∨ c ≠ .none) → u.fbuf = s.fbuf) := by
  have hout : ∀ (r q : Reg) (f : RegFile) (v : Half), q.isOutput = true → r.isOutput = false →
      (f.set q v).get r = f.get r := by
    intro r q f v hq hr
    refine RegFile.get_set_ne f v ?_
    rintro rfl
    rw [hq] at hr
    cases hr
  cases i with
  | rdr _ => cases hi
  | wrr _ _ => cases hi
  | rdb _ => cases hi
  | wrb _ _ => cases hi
  | nop =>
    cases h
    exact ⟨.none, noFlags, s, rfl, by simp, by simp, rfl, rfl, rfl, by simp [noFlags], by simp [noFlags], by simp⟩
  | badCmd _ _ =>
    cases h
    exact ⟨.badCmd, noFlags, s, rfl, by simp, by simp, rfl, rfl, rfl, by simp [noFlags], by simp [noFlags], by simp⟩
  | cksum =>
    rcases cksumIn_cases .big s with ⟨-, he⟩ | ⟨-, -, he⟩ | ⟨B, -, -, he⟩ <;>
      rw [exec, execCksum, params_endian, he] at h <;> cases h
    · exact ⟨_, noFlags, s, rfl, by simp, by simp, rfl, rfl, rfl, by simp [noFlags], by simp [noFlags], by simp⟩
    · exact ⟨_, noFlags, _, rfl, by simp, fun r hr => hout r .outCsum _ _ rfl hr, rfl, rfl, rfl, by simp [noFlags],
        by simp [noFlags], by simp⟩
  | verify =>
    rcases verifyIn_cases .big s with ⟨-, he⟩ | ⟨-, -, he⟩ | ⟨B, -, -, he⟩ <;>
      rw [exec, execVerify, params_endian, he] at h <;> cases h
    · exact ⟨_, noFlags, s, rfl, by simp, by simp, rfl, rfl, rfl, by simp, by simp [noFlags], by simp⟩
    · exact ⟨_, _, _, rfl, by simp, fun r hr => hout r .outCsum _ _ rfl hr, rfl, rfl, rfl, by simp, by simp [noFlags],
        by simp⟩
  | encode =>
    rcases encodeIn_cases Config.params s with ⟨hne, he⟩ | ⟨-, -, he⟩ | ⟨P, -, -, he⟩ <;>
      rw [exec, execEncode, he] at h <;> cases h
    · exact ⟨_, noFlags, s, rfl, by simp, by simp, rfl, rfl, rfl, by simp [noFlags], by simp [noFlags], by simp⟩
    · refine ⟨_, noFlags, _, rfl, by simp, fun r hr => ?_, rfl, rfl, rfl, by simp [noFlags], by simp [noFlags], by simp⟩
      simp only [writeFrame, writeReg_regs]
      rw [hout r _ _ _ rfl hr, hout r _ _ _ rfl hr, hout r _ _ _ rfl hr]
  | decode =>
    rcases decodeIn_cases Config.params s with ⟨hne, he⟩ | ⟨-, -, he⟩ | ⟨k, q, c0, c1, l0, l1, -, -, he⟩ <;>
      rw [exec, execDecode, he] at h <;> cases h
    · exact ⟨_, noFlags, s, rfl, by simp, by simp, rfl, rfl, rfl, by simp [noFlags], by simp, by simp⟩
    · refine ⟨_, _, _, rfl, by simp, fun r hr => ?_, rfl, rfl, rfl, by simp [decodeFlags], by simp, by simp⟩
      simp only [writeReg_regs]
      rw [hout r _ _ _ rfl hr, hout r _ _ _ rfl hr, hout r _ _ _ rfl hr, hout r _ _ _ rfl hr, hout r _ _ _ rfl hr]

/-- No meaning refuses. -/
theorem exec_ne_refused (i : Instr) (s : State) (r : Refusal) : exec i s ≠ .refused r := by
  intro h
  cases i with
  | rdr a => rcases execRdr_cases a s with ⟨-, -, he⟩ | ⟨-, he⟩ <;> rw [exec, he] at h <;> cases h
  | wrr a w => rcases execWrr_cases a w s with ⟨-, he⟩ | ⟨-, he⟩ <;> rw [exec, he] at h <;> cases h
  | rdb a =>
    rcases execRdb_cases a s with ⟨-, he⟩ | ⟨-, -, he⟩ | ⟨-, -, -, he⟩ | ⟨b, -, -, -, he⟩ <;>
      rw [exec, he] at h <;> cases h
  | wrb a b =>
    rcases execWrb_cases a b s with ⟨-, he⟩ | ⟨-, -, he⟩ | ⟨-, -, he⟩ <;> rw [exec, he] at h <;> cases h
  | nop => cases h
  | badCmd _ _ => cases h
  | cksum =>
    rcases cksumIn_cases .big s with ⟨-, he⟩ | ⟨-, -, he⟩ | ⟨B, -, -, he⟩ <;>
      rw [exec, execCksum, params_endian, he] at h <;> cases h
  | verify =>
    rcases verifyIn_cases .big s with ⟨-, he⟩ | ⟨-, -, he⟩ | ⟨B, -, -, he⟩ <;>
      rw [exec, execVerify, params_endian, he] at h <;> cases h
  | encode =>
    rcases encodeIn_cases Config.params s with ⟨hne, he⟩ | ⟨-, -, he⟩ | ⟨P, -, -, he⟩ <;>
      rw [exec, execEncode, he] at h <;> cases h
  | decode =>
    rcases decodeIn_cases Config.params s with ⟨hne, he⟩ | ⟨-, -, he⟩ | ⟨k, q, c0, c1, l0, l1, -, -, he⟩ <;>
      rw [exec, execDecode, he] at h <;> cases h

/-! ### A step -/

/-- What a step that answers a next state can be: reset, nothing, an instruction that ran, or one whose fault is
recorded. -/
theorem step_cases {s t : State} (h : step s = .next t) :
    (nextAction s = .reset ∧ t = applyReset (consumeInput s)) ∨
    (nextAction s = .idle ∧ t = consumeInput s) ∨
    (∃ i, nextAction s = .run i ∧ exec i (consumeInput s) = .next t) ∨
    (∃ i r, nextAction s = .run i ∧ exec i (consumeInput s) = .fault r ∧ t = recordFault r (consumeInput s)) := by
  rw [step] at h
  cases ha : nextAction s with
  | stopped r => rw [ha] at h; cases h
  | reset => rw [ha] at h; cases h; exact .inl ⟨rfl, rfl⟩
  | idle => rw [ha] at h; cases h; exact .inr (.inl ⟨rfl, rfl⟩)
  | run i =>
    rw [ha] at h
    cases hx : exec i (consumeInput s) with
    | next u => simp only [hx, settle] at h; cases h; exact .inr (.inr (.inl ⟨i, rfl, hx⟩))
    | fault r => simp only [hx, settle] at h; cases h; exact .inr (.inr (.inr ⟨i, r, rfl, hx, rfl⟩))
    | refused r => exact absurd hx (exec_ne_refused i _ r)

@[simp] theorem consumeInput_regs (s : State) : (consumeInput s).regs = s.regs := rfl
@[simp] theorem consumeInput_fbuf (s : State) : (consumeInput s).fbuf = s.fbuf := rfl
@[simp] theorem consumeInput_pending (s : State) : (consumeInput s).pending = s.pending := rfl
@[simp] theorem consumeInput_fault (s : State) : (consumeInput s).fault = s.fault := rfl
@[simp] theorem consumeInput_inputs (s : State) : (consumeInput s).inputs = s.inputs.tail := rfl
@[simp] theorem consumeInput_rdata (s : State) : (consumeInput s).rdata = s.rdata := rfl
@[simp] theorem busy_consumeInput (s : State) : (consumeInput s).busy = s.busy := rfl

theorem unlessFaulted_of_none {s : State} {a : Action} (h : s.fault = none) : unlessFaulted s a = a := by
  rw [unlessFaulted, h]

theorem unlessFaulted_of_fault {s : State} {a : Action} {r : Fault} (h : s.fault = some r) :
    unlessFaulted s a = .stopped r := by
  rw [unlessFaulted, h]

/-- The next action by the head of the inputs. -/
theorem nextAction_nil {s : State} (h : s.inputs = []) : nextAction s = unlessFaulted s (engineAction s) := by
  rw [nextAction, h]

theorem nextAction_engine {s : State} {rest : List Event} (h : s.inputs = .engine :: rest) :
    nextAction s = unlessFaulted s (engineAction s) := by
  rw [nextAction, h]

theorem nextAction_request {s : State} {w : Request} {rest : List Event} (h : s.inputs = .request w :: rest) :
    nextAction s = unlessFaulted s (.run (decodeRequest w)) := by
  rw [nextAction, h]

theorem nextAction_rst {s : State} {rest : List Event} (h : s.inputs = .rst :: rest) : nextAction s = .reset := by
  rw [nextAction, h]

/-- A faulted state is reset by `rst` and stopped on every other step. -/
theorem nextAction_faulted {s : State} {r : Fault} (h : s.fault = some r) :
    (∃ rest, s.inputs = .rst :: rest ∧ nextAction s = .reset) ∨
    ((∀ rest, s.inputs ≠ .rst :: rest) ∧ nextAction s = .stopped r) := by
  cases hin : s.inputs with
  | nil => exact .inr ⟨nofun, by rw [nextAction_nil hin, unlessFaulted_of_fault h]⟩
  | cons e rest =>
    cases e with
    | request w => exact .inr ⟨nofun, by rw [nextAction_request hin, unlessFaulted_of_fault h]⟩
    | engine => exact .inr ⟨nofun, by rw [nextAction_engine hin, unlessFaulted_of_fault h]⟩
    | rst => exact .inl ⟨rest, rfl, nextAction_rst hin⟩

/-- When the next action is an instruction: a host request, or the engine's command with one pending. -/
theorem nextAction_run {s : State} {i : Instr} (h : nextAction s = .run i) :
    s.fault = none ∧
    ((∃ w rest, s.inputs = .request w :: rest ∧ i = decodeRequest w) ∨
     (s.pending = true ∧ i = decodeCommand s.regs.cmd ∧ (s.inputs = [] ∨ ∃ rest, s.inputs = .engine :: rest))) := by
  have hu : ∀ a : Action, unlessFaulted s a = .run i → s.fault = none ∧ a = .run i := by
    intro a ha
    cases hf : s.fault with
    | some r => rw [unlessFaulted_of_fault hf] at ha; cases ha
    | none => rw [unlessFaulted_of_none hf] at ha; exact ⟨rfl, ha⟩
  have he : engineAction s = .run i → s.pending = true ∧ i = decodeCommand s.regs.cmd := by
    intro he
    by_cases hp : s.pending = true
    · rw [engineAction, if_pos hp] at he; cases he; exact ⟨hp, rfl⟩
    · rw [engineAction, if_neg hp] at he; cases he
  cases hin : s.inputs with
  | nil =>
    obtain ⟨hf, ha⟩ := hu _ (by rw [← nextAction_nil hin]; exact h)
    exact ⟨hf, .inr ⟨(he ha).1, (he ha).2, .inl rfl⟩⟩
  | cons e rest =>
    cases e with
    | request w =>
      obtain ⟨hf, ha⟩ := hu _ (by rw [← nextAction_request hin]; exact h)
      cases ha
      exact ⟨hf, .inl ⟨w, rest, rfl, rfl⟩⟩
    | engine =>
      obtain ⟨hf, ha⟩ := hu _ (by rw [← nextAction_engine hin]; exact h)
      exact ⟨hf, .inr ⟨(he ha).1, (he ha).2, .inr ⟨rest, rfl⟩⟩⟩
    | rst => rw [nextAction_rst hin] at h; cases h

/-- A run of no steps, and of one step more, of the block (Host/Core.lean). -/
theorem core_run_zero (s : State) : Host.Core.run Sys2Proof.core 0 s = .next s := rfl

theorem core_run_succ (k : Nat) (s : State) : Host.Core.run Sys2Proof.core (k + 1) s =
    match step s with
    | .next t => Host.Core.run Sys2Proof.core k t
    | .fault r => .fault r
    | .refused r => .refused r := by
  cases h : step s <;> simp only [Host.Core.run] <;> simp only [show Sys2Proof.core.step s = step s from rfl, h]

/-- The invariant speaks of the registers, FBUF and the pending command only. -/
theorem State.Inv.of_eq {s t : State} (h : s.Inv) (h1 : t.regs = s.regs) (h2 : t.fbuf = s.fbuf)
    (h3 : t.pending = s.pending) : t.Inv := by
  obtain ⟨r, m, p, f, i, d⟩ := t
  simp only at h1 h2 h3
  subst h1 h2 h3
  exact ⟨h.1, h.2, h.3, h.4, h.5, h.6, h.7, h.8, h.9, h.10, h.11, h.12⟩

/-- A decoded request word is a transaction, a decoded command word is none. -/
theorem isTransaction_decodeRequest (w : Request) : isTransaction (decodeRequest w) = true := by
  rw [decodeRequest]; split <;> rfl

theorem isTransaction_decodeCommand (v : Half) : isTransaction (decodeCommand v) = false := by
  rw [decodeCommand]
  split
  · rfl
  · split <;> rfl

end Sys2Proof.Machine
end

