-- ==== Sys2Proof/Laws/PerInstr.lean ====
section
/-! SUPPORT. One lemma per instruction: its encoding has the fixed bits its row of spec/opcode_table.json gives it
(mask and match; the reserved row is every command word of no other row). -/

namespace Sys2Proof.Laws

/-- An encoding has the fixed bits of the instruction's opcode-table row. -/
def matchesRow : Instr → Encoded → Bool
  | .rdr _, .request w => w &&& 0xC000000 == 0x0000000
  | .wrr _ _, .request w => w &&& 0xC000000 == 0x8000000
  | .rdb _, .request w => w &&& 0xC000000 == 0x4000000
  | .wrb _ _, .request w => w &&& 0xC000000 == 0xC000000
  | .nop, .command v => v &&& 0xFFFF == 0x0000
  | .cksum, .command v => v &&& 0xFFFF == 0x0001
  | .verify, .command v => v &&& 0xFFFF == 0x0002
  | .encode, .command v => v &&& 0xFFFF == 0x0003
  | .decode, .command v => v &&& 0xFFFF == 0x0004
  | .badCmd _ _, .command v => decide (5 ≤ v.toNat)
  | _, _ => false

/-- The encoding of a well-formed instruction matches its row. -/
def EncodingPattern.Statement (i : Instr) : Prop :=
  i.wellFormed = true → matchesRow i (Sys2Proof.encode i) = true

/-- The selector bits of a request word are WE and SPACE, whatever the other fields (30_encoding.md R80). -/
theorem requestWord_selector (we space : Bool) (a : PortAddr) (v : Half) :
    requestWord we space a v &&& 0xC000000 = requestWord we space 0 0 := by
  have hm : ∀ j : Fin 28, (0xC000000 : Request).getLsbD j = decide (26 ≤ j.val) := by decide
  apply BitVec.eq_of_getLsbD_eq
  intro i hi
  rw [BitVec.getLsbD_and, hm ⟨i, hi⟩]
  simp only [requestWord, BitVec.getLsbD_append]
  by_cases h : 26 ≤ i
  · have h1 : ¬ i < 16 := by omega
    have h2 : ¬ i - 16 < 10 := by omega
    simp [h, h1, h2]
  · simp only [h, decide_false, Bool.and_false]
    split
    · simp
    · rw [if_pos (by omega)]; simp

theorem EncodingPattern.rdr (addr : PortAddr) : EncodingPattern.Statement (.rdr addr) := fun _ => by
  simp only [matchesRow, Sys2Proof.encode, requestWord_selector]; decide

theorem EncodingPattern.wrr (addr : PortAddr) (value : Half) : EncodingPattern.Statement (.wrr addr value) := fun _ => by
  simp only [matchesRow, Sys2Proof.encode, requestWord_selector]; decide

theorem EncodingPattern.rdb (index : PortAddr) : EncodingPattern.Statement (.rdb index) := fun _ => by
  simp only [matchesRow, Sys2Proof.encode, requestWord_selector]; decide

theorem EncodingPattern.wrb (index : PortAddr) (byte : Byte) : EncodingPattern.Statement (.wrb index byte) := fun _ => by
  simp only [matchesRow, Sys2Proof.encode, requestWord_selector]; decide

theorem EncodingPattern.nop : EncodingPattern.Statement .nop := fun _ => by decide

theorem EncodingPattern.cksum : EncodingPattern.Statement .cksum := fun _ => by decide

theorem EncodingPattern.verify : EncodingPattern.Statement .verify := fun _ => by decide

theorem EncodingPattern.encode : EncodingPattern.Statement .encode := fun _ => by decide

theorem EncodingPattern.decode : EncodingPattern.Statement .decode := fun _ => by decide

/-- A reserved command word is none of the five commands' words. -/
theorem EncodingPattern.badCmd (op : BitVec 3) (rsvd : BitVec 13) : EncodingPattern.Statement (.badCmd op rsvd) := by
  intro h
  have hn : (commandWord op rsvd).toNat = rsvd.toNat * 8 + op.toNat := by
    have hop := op.isLt
    simp only [commandWord, BitVec.toNat_append]
    rw [← Nat.shiftLeft_add_eq_or_of_lt hop, Nat.shiftLeft_eq]
  simp only [Instr.wellFormed, isReservedCommand, Bool.or_eq_true, bne_iff_ne, ne_eq, decide_eq_true_eq] at h
  simp only [matchesRow, Sys2Proof.encode, hn, decide_eq_true_eq]
  rcases h with h | h
  · have : rsvd.toNat ≠ 0 := fun h' => h (BitVec.eq_of_toNat_eq (by simpa using h'))
    omega
  · omega

end Sys2Proof.Laws
end

