-- ==== Sys2Proof/Tests/Slice0.lean ====
section
/-! SUPPORT. The model's own tests. Expected values are those of spec/95_test_vectors.md (a test's docstring names the
vector) or are written out from the rule named; the witnesses show that the hypotheses of the obligations can be met. -/

open Sys2Proof Sys2Proof.Machine

namespace Sys2Proof.Tests

/-! ### Helpers -/

/-- The next state, if there is one. -/
def nextOf : Result → Option State
  | .next t => some t
  | .fault _ => none
  | .refused _ => none

/-- The fault, if there is one. -/
def faultOf : Result → Option Fault
  | .next _ => none
  | .fault r => some r
  | .refused _ => none

/-- STATUS after a result. -/
def statusOf (r : Result) : Option Half := (nextOf r).map fun t => t.regs.status

/-- The response after a result. -/
def rdataOf (r : Result) : Option Half := (nextOf r).bind fun t => t.rdata

/-- The reset state with bytes written in FBUF from `lo` on. -/
def withBytes (lo : Nat) (B : List Byte) : State := { State.reset with fbuf := Memory.writeRange [] lo B }

/-- The reset state with the bytes of a frame and IN_FLEN. -/
def received (B : List Byte) (n : Half) : State :=
  { withBytes 0 B with regs := { RegFile.reset with inFlen := n } }

/-- The reset state with ENCODE's operands. -/
def toSend (kind seq plen : Half) (P : List Byte) : State :=
  { withBytes 6 P with regs := { RegFile.reset with inKind := kind, inSeq := seq, inPlen := plen } }

/-- Frame E5. -/
def frameE5 : List Byte := [0x0C, 0x2A, 0x8B, 0x6A, 0x00, 0x02, 0x68, 0x69]

/-- Frame V1. -/
def frameV1 : List Byte := [0x0C, 0x00, 0xF3, 0xFF, 0x00, 0x00]

/-- The reset state with a command issued. -/
def issued (v : Half) (s : State) : State := issue v s

theorem holdsAt_withBytes (lo : Nat) (B : List Byte) : holdsAt (withBytes lo B) lo B := by
  intro k hk
  rw [withBytes, Memory.read_writeRange, if_pos ⟨by omega, by omega⟩, Nat.add_sub_cancel_left]

theorem holdsAt_received (B : List Byte) (n : Half) : holdsAt (received B n) 0 B := holdsAt_withBytes 0 B

theorem received_inFlen (B : List Byte) (n : Half) : (received B n).regs.inFlen = n := rfl

theorem holdsAt_toSend (k q l : Half) (P : List Byte) : holdsAt (toSend k q l P) 6 P := holdsAt_withBytes 6 P

theorem toSend_operands (k q l : Half) (P : List Byte) :
    (toSend k q l P).regs.inKind = k ∧ (toSend k q l P).regs.inPlen = l := ⟨rfl, rfl⟩

/-! ### Well-formed terms -/

theorem test_badCmd_term_with_nop_word_refused : (Instr.badCmd 0 0).wellFormed = false := by decide
theorem test_badCmd_term_with_decode_word_refused : (Instr.badCmd 4 0).wellFormed = false := by decide
theorem test_badCmd_term_reserved_op : (Instr.badCmd 5 0).wellFormed = true := by decide
theorem test_badCmd_term_reserved_bits : (Instr.badCmd 0 1).wellFormed = true := by decide

/-! ### Decoding: one word written out from R80, R81, R84, R85 for each constructor -/

theorem test_decode_rdr : decodeTableWord 32 0b00_0000000001_0000000000000000 = some (.rdr 1) := by decide
theorem test_decode_wrr : decodeTableWord 32 0b10_0000000100_0000000000000010 = some (.wrr 4 2) := by decide
theorem test_decode_rdb : decodeTableWord 32 0b01_1111101110_0000000000000000 = some (.rdb 0x3EE) := by decide
theorem test_decode_wrb : decodeTableWord 32 0b11_1111101101_1010101001010101 = some (.wrb 1005 0x55) := by decide
theorem test_decode_nop : decodeTableWord 16 0b0000000000000_000 = some .nop := by decide
theorem test_decode_cksum : decodeTableWord 16 0b0000000000000_001 = some .cksum := by decide
theorem test_decode_verify : decodeTableWord 16 0b0000000000000_010 = some .verify := by decide
theorem test_decode_encode : decodeTableWord 16 0b0000000000000_011 = some .encode := by decide
theorem test_decode_decode : decodeTableWord 16 0b0000000000000_100 = some .decode := by decide
theorem test_decode_reserved_op : decodeTableWord 16 0b0000000000000_101 = some (.badCmd 5 0) := by decide
theorem test_decode_reserved_bit : decodeTableWord 16 0b1000000000000_011 = some (.badCmd 3 0x1000) := by decide
theorem test_decode_ignored_read_data : decodeTableWord 32 0x001FFFF = some (.rdr 1) := by decide
theorem test_decode_wide_word_rejected : decodeTableWord 32 0x10000000 = none := by decide

/-! ### The checksum -/

/-- Vectors K5, K7 and K1. -/
theorem test_checksum_big : checksum .big [0x12, 0x34, 0x56] = 0x97CB ∧
    checksum .big [0xFF, 0xFF, 0x00, 0x01] = 0xFFFE ∧ checksum .big [] = 0xFFFF := by decide

/-- Vectors K5, K6 and K4 in the other byte order. -/
theorem test_checksum_little : checksum .little [0x12, 0x34, 0x56] = 0xCB97 ∧
    checksum .little [0x00, 0x01, 0xF2, 0x03, 0xF4, 0xF5, 0xF6, 0xF7] = 0x0D22 ∧
    checksum .little [0x01] = 0xFFFE := by decide

/-- Vector E5 in the other byte order. -/
theorem test_frame_little :
    frameOf .little 0x0C 0x2A 2 [0x68, 0x69] = [0x0C, 0x2A, 0x89, 0x6C, 0x02, 0x00, 0x68, 0x69] := by decide

/-! ### Instructions -/

/-- Vector H1. -/
theorem test_rdr_status : rdataOf (exec (.rdr 1) State.reset) = some 0x0000 := by decide

/-- R162: STATUS reads 0x0001 while BUSY = 1. -/
theorem test_rdr_status_busy : rdataOf (exec (.rdr 1) (issued 3 State.reset)) = some 0x0001 := by decide

/-- Vector H2. -/
theorem test_wrr_in_kind :
    (nextOf (exec (.wrr 2 0x010C) State.reset)).map (fun t => t.regs.inKind) = some 0x000C := by decide

/-- Vector H4. -/
theorem test_wrr_status_ignored : nextOf (exec (.wrr 1 0xFFFF) State.reset) = some State.reset := by decide

/-- R164's example. -/
theorem test_rdb_checksum_byte : rdataOf (exec (.rdb 2) (withBytes 0 frameE5)) = some 0x008B := by decide

/-- Vector H10. -/
theorem test_rdb_outside : rdataOf (exec (.rdb 1006) State.reset) = some 0x0000 := by decide

/-- Vector H12. -/
theorem test_wrb_last : (nextOf (exec (.wrb 1005 0x55) State.reset)).map (fun t => t.fbuf) = some [(1005, 0x55)] := by
  decide

/-- Vector H11. -/
theorem test_wrb_outside : nextOf (exec (.wrb 1006 0x55) State.reset) = some State.reset := by decide

/-- Vector Z6. -/
theorem test_nop_clears_valid :
    statusOf (exec .nop { State.reset with regs := { RegFile.reset with status := 0x0006 } }) = some 0x0002 := by decide

/-- Vector H13. -/
theorem test_cksum_empty : (nextOf (exec .cksum State.reset)).map (fun t => (t.regs.outCsum, t.regs.status)) =
    some (0xFFFF, 0x0002) := by decide

/-- Vector K7. -/
theorem test_cksum_carry : (nextOf (exec .cksum (received [0xFF, 0xFF, 0x00, 0x01] 4))).map
    (fun t => (t.regs.outCsum, t.regs.status)) = some (0xFFFE, 0x0002) := by decide

/-- Vector V1. -/
theorem test_verify_valid : (nextOf (exec .verify (received frameV1 6))).map
    (fun t => (t.regs.outCsum, t.regs.status)) = some (0x0000, 0x0006) := by decide

/-- Vector V5. -/
theorem test_verify_short : (nextOf (exec .verify (received frameE5 7))).map
    (fun t => (t.regs.outCsum, t.regs.status)) = some (0x0069, 0x0002) := by decide

/-- Vector E5. -/
theorem test_encode_frame : (nextOf (exec .encode (toSend 12 0x2A 2 [0x68, 0x69]))).map
    (fun t => (t.fbuf, t.regs.outCsum, t.regs.outFlen)) = some (Memory.writeRange [] 0 frameE5, 0x8B6A, 8) := by decide

/-- Vector E18. -/
theorem test_encode_precedence : statusOf (exec .encode (toSend 13 0 1 [])) = some 0x0042 := by decide

/-- The example of R141, IN_FLEN = 8. -/
theorem test_decode_fields : (nextOf (exec .decode (received frameE5 8))).map
    (fun t => (t.regs.outKind, t.regs.outSeq, t.regs.outCsum, t.regs.outLen, t.regs.outPlen, t.regs.status)) =
    some (12, 0x2A, 0x8B6A, 2, 2, 0x0002) := by decide

/-- Vector F6: F_LEN alone. -/
theorem test_decode_length_flag : (nextOf (exec .decode (received [0x0C, 0x00, 0xF3, 0xFF, 0x00, 0x00] 200))).map
    (fun t => (t.regs.outPlen, t.regs.status)) = some (194, 0x0202) := by decide

/-- Vector Z4. -/
theorem test_badCmd : nextOf (exec (.badCmd 3 0x1000) (issued 0x8003 State.reset)) =
    some { State.reset with regs := { RegFile.reset with cmd := 0x8003, status := 0x0012 } } := by decide

/-! ### Steps -/

/-- Vector F1: the step records the fault. -/
theorem test_step_records_fault :
    (nextOf (step { State.reset with inputs := [.request 0x4000000] })).map (fun t => t.fault) =
    some (some .uninitRead) := by decide

/-- Vector F9 and rule R210: `rst` resets a faulted block, which is still faulted. -/
theorem test_step_faulted_reset :
    nextOf (step { withBytes 0 frameV1 with fault := some .uninitRead, inputs := [.rst] }) =
    some { State.reset with fault := some .uninitRead } := by decide

/-- R190: every other step of a faulted state answers the fault. -/
theorem test_step_faulted_stops :
    faultOf (step { State.reset with fault := some .uninitRead, inputs := [.request 0x0010000] }) = some .uninitRead := by
  decide

/-- Vector F7, the engine's step after the read. -/
theorem test_busy_read_faults :
    (nextOf (step { issued 0 State.reset with inputs := [.request 0x0080000, .engine] })).map (fun t => t.fault) =
    some (some .hazardBusyAccess) := by decide

/-- Vector R2: reset abandons the pending command. -/
theorem test_reset_abandons : nextOf (step { issued 1 State.reset with inputs := [.rst] }) = some State.reset := by
  decide

/-- Vector F3 and rule R87: the engine's step performs the command in CMD. -/
theorem test_step_engine :
    statusOf (step (issued 1 (received [] 1007))) = some 0x0022 := by decide

/-- The placed command word runs in the very next step, from reset: R150's example. -/
theorem test_placed_command_runs : statusOf (step (State.reset.withFetchWord 16 0)) = some 0x0002 := by decide

/-! ### Host assembly -/

/-- R100's example. -/
theorem test_assemble_wrr : assembleLine "WRR IN_KIND, 12 ; DATA" = some (.transactions [.wrr 2 12]) ∧
    requestOf (.wrr 2 12) = some 0x802000C := by decide

/-- R101. -/
theorem test_assemble_pseudo : assembleLine "CMD DECODE" = some (.transactions [.wrr 0 4]) ∧
    assembleLine "WRBUF 0, 0xFF, 1" = some (.transactions [.wrb 0 0xFF, .wrb 1 1]) ∧
    assembleLine "RDBUF 6, 2" = some (.transactions [.rdb 6, .rdb 7]) ∧ assembleLine "POLL" = some .poll := by decide

/-- Vectors H9 and H7, and lines that are not of the syntax. -/
theorem test_assemble_limits : assembleLine "WRB 6, 0x1FF" = some (.transactions [.wrb 6 0xFF]) ∧
    assembleLine "RDR 0x3FF" = some (.transactions [.rdr 1023]) ∧ assembleLine "RDR 1024" = none ∧
    assembleLine "WRR CMD 3" = none := by decide

theorem test_asm_text : asmText (.wrr 2 12) = some "WRR 2, 12" := by decide

/-! ### Witnesses: the hypotheses of each obligation are met, every clause at a boundary of its range -/

/-- Busy with a command. -/
def busyState : State := issued 3 State.reset

theorem witness_DecodeOfEncodedInstruction : (Instr.badCmd 5 0).wellFormed = true ∧
    (Instr.badCmd 0 1).wellFormed = true ∧ (Instr.badCmd 7 0x1FFF).wellFormed = true ∧
    (Instr.wrb 1023 0xFF).wellFormed = true := by decide

theorem witness_TableWordOfEncodedInstruction : (Instr.wrr 1023 0xFFFF).wellFormed = true ∧
    (Instr.decode).wellFormed = true := by decide

theorem witness_CommandAndRequestDecodeTotal : (4 : Half).toNat < 5 ∧ 5 ≤ (5 : Half).toNat ∧
    5 ≤ (0xFFFF : Half).toNat := by decide

theorem witness_RequestKindBySelectorBits : (0x3FFFFFF : Request).extractLsb' 26 2 = 0b00#2 ∧
    (0x8000000 : Request).extractLsb' 26 2 = 0b10#2 ∧ (0x4000000 : Request).extractLsb' 26 2 = 0b01#2 ∧
    (0xFFFFFFF : Request).extractLsb' 26 2 = 0b11#2 := by decide

theorem witness_WordFormation : 2 * 0 < ([0xFF] : List Byte).length ∧
    2 * 1 < ([0xFF, 0xFF, 0xFF] : List Byte).length := by decide

theorem witness_FoldClosedForm : 0 < 1 ∧ fold 0xFFFF = 0xFFFF ∧ fold 0x10000 = 1 := by decide

theorem witness_ValidityIsPositiveMultiple : wordSum (words .big [0x00, 0x00, 0x00]) = 0 := by decide

theorem witness_SumOrderAndGroupingFree : ([0x0001, 0xFFFF] : List Half).Perm [0xFFFF, 0x0001] ∧
    (List.replicate 1006 (0xFF : Byte)).length ≤ 1006 :=
  ⟨.swap _ _ _, by rw [List.length_replicate]⟩

theorem witness_SingleByteErrorDetected : 5 < frameV1.length ∧ checksum .big frameV1 = 0 ∧
    frameV1[5]? ≠ some 0x01 ∧ checksum .little [0xFF, 0xFF] = 0 := by decide

/-- Vectors V6, V2, V3 and V7. -/
theorem witness_UndetectedChangesKeepValidity :
    ([0x0C, 0x2A, 0x8B, 0x6A] : List Byte).length % 2 = 0 ∧ ([] : List Byte).length % 2 = 0 ∧
    checksum .big ([0x0C, 0x00] ++ [0x00, 0x00] ++ [0x00, 0x02, 0xF3, 0xFD]) = 0 ∧
    (∃ b ∈ ([0x0C, 0x00] : List Byte) ++ [0x00, 0x02, 0xF3, 0xFD], b ≠ 0) ∧
    checksum .big ([0x0C, 0x00] ++ [0xFF, 0xFF] ++ [0x00, 0x02, 0xF3, 0xFD]) = 0 ∧
    0 < wordSum (words .big [0xFF, 0xFF]) ∧ 0 < wordSum (words .big frameV1) ∧
    wordSum (words .big [0xFF, 0xFF]) % 0xFFFF = wordSum (words .big frameV1) % 0xFFFF := by decide

theorem witness_RegisterReadResponds : busyState.busy = true ∧ (0 : PortAddr) ≠ 1 ∧ State.reset.busy = false ∧
    (11 : PortAddr).toNat = regNumber .outPlen ∧ 12 ≤ (12 : PortAddr).toNat ∧ 12 ≤ (1023 : PortAddr).toNat := by
  decide

theorem witness_RegisterWriteEffect : busyState.busy = true ∧ State.reset.busy = false ∧
    6 ≤ (6 : PortAddr).toNat ∧ 6 ≤ (1023 : PortAddr).toNat := by decide

theorem witness_BufferReadResponds : busyState.busy = true ∧ State.reset.busy = false ∧
    1006 ≤ (1006 : PortAddr).toNat ∧ 1006 ≤ (1023 : PortAddr).toNat ∧ (1005 : PortAddr).toNat < 1006 ∧
    State.reset.fbuf.read 1005 = none ∧ (withBytes 1005 [0x55]).busy = false ∧
    (withBytes 1005 [0x55]).fbuf.read 1005 = some 0x55 := by decide

theorem witness_BufferWriteEffect : busyState.busy = true ∧ State.reset.busy = false ∧
    1006 ≤ (1006 : PortAddr).toNat ∧ (1005 : PortAddr).toNat < 1006 := by decide

theorem witness_TransactionsButIssueIdempotent :
    isTransaction (.wrb 1005 0x55) = true ∧ (∀ v, Instr.wrb 1005 0x55 ≠ .wrr 0 v) ∧
    exec (.wrb 1005 0x55) State.reset = .next (withBytes 1005 [0x55]) ∧
    isTransaction (.wrr 5 7) = true ∧ (∀ v, Instr.wrr 5 7 ≠ .wrr 0 v) ∧
    ∃ t, exec (.wrr 5 7) State.reset = .next t :=
  ⟨rfl, nofun, rfl, rfl, by simp, _, rfl⟩

theorem witness_TransactionsKeepReadOnlyRegisters :
    isTransaction (.wrr 0 1) = true ∧ exec (.wrr 0 1) State.reset = .next (issued 1 State.reset) ∧
    isTransaction (.wrr 8 1) = true ∧ (∀ v, Instr.wrr 8 1 ≠ .wrr 0 v) ∧
    exec (.wrr 8 1) State.reset = .next State.reset ∧ Reg.isOutput .outCsum = true :=
  ⟨rfl, rfl, rfl, by simp, rfl, rfl⟩

/-- IN_FLEN at 1007, at 1006 with all of FBUF written, at 0, and over an UNWRITTEN cell. -/
theorem witness_CksumWritesChecksum :
    1006 < (received [] 1007).regs.inFlen.toNat ∧
    (received (List.replicate 1006 0xFF) 1006).regs.inFlen.toNat ≤ 1006 ∧
    (List.replicate 1006 (0xFF : Byte)).length = (received (List.replicate 1006 0xFF) 1006).regs.inFlen.toNat ∧
    holdsAt (received (List.replicate 1006 0xFF) 1006) 0 (List.replicate 1006 0xFF) ∧
    ([] : List Byte).length = State.reset.regs.inFlen.toNat ∧ holdsAt State.reset 0 [] ∧
    5 < (received [1, 2, 3, 4, 5] 6).regs.inFlen.toNat ∧ (received [1, 2, 3, 4, 5] 6).fbuf.read 5 = none :=
  ⟨by decide, by rw [received_inFlen]; decide, by rw [received_inFlen, List.length_replicate]; decide,
    holdsAt_received _ _, rfl, nofun, by decide, by decide⟩

/-- As for CKSUM, and a frame with checksum 0. -/
theorem witness_VerifyWritesValidity :
    1006 < (received [] 1007).regs.inFlen.toNat ∧
    (received frameV1 6).regs.inFlen.toNat ≤ 1006 ∧ frameV1.length = (received frameV1 6).regs.inFlen.toNat ∧
    holdsAt (received frameV1 6) 0 frameV1 ∧ checksum .big frameV1 = 0 ∧ checksum .big [] ≠ 0 ∧
    holdsAt State.reset 0 [] ∧
    5 < (received [1, 2, 3, 4, 5] 6).regs.inFlen.toNat ∧ (received [1, 2, 3, 4, 5] 6).fbuf.read 5 = none :=
  ⟨by decide, by decide, by decide, holdsAt_withBytes 0 _, by decide, by decide, nofun, by decide, by decide⟩

/-- A DATA frame of 1000 payload bytes, an ACK, and an UNWRITTEN last payload byte. -/
theorem witness_EncodeFramesPayload :
    (toSend 12 0 1000 (List.replicate 1000 0xFF)).regs.inPlen.toNat ≤ 1000 ∧
    (toSend 12 0 1000 (List.replicate 1000 0xFF)).regs.inKind.extractLsb' 0 8 = 12#8 ∧
    (List.replicate 1000 (0xFF : Byte)).length = (1000 : Half).toNat ∧
    holdsAt (toSend 12 0 1000 (List.replicate 1000 0xFF)) 6 (List.replicate 1000 0xFF) ∧
    (toSend 11 255 0 []).regs.inKind.extractLsb' 0 8 = 11#8 ∧ (toSend 11 255 0 []).regs.inPlen = 0 ∧
    holdsAt (toSend 11 255 0 []) 6 [] ∧
    1 < (toSend 12 0 2 [0x68]).regs.inPlen.toNat ∧ (toSend 12 0 2 [0x68]).fbuf.read (6 + 1) = none :=
  ⟨by rw [(toSend_operands _ _ _ _).2]; decide, by rw [(toSend_operands _ _ _ _).1]; decide,
    by rw [List.length_replicate]; decide, holdsAt_toSend _ _ _ _, by decide, by decide, nofun, by decide, by decide⟩

/-- Vectors E13, E14, E15. -/
theorem witness_EncodeFramesPayload_errors :
    1000 < (toSend 12 0 1001 []).regs.inPlen.toNat ∧
    ((toSend 13 0 1000 []).regs.inPlen.toNat ≤ 1000 ∧ (toSend 13 0 1000 []).regs.inKind.extractLsb' 0 8 ≠ 12#8 ∧
      (toSend 13 0 1000 []).regs.inKind.extractLsb' 0 8 ≠ 11#8) ∧
    ((toSend 11 0 1 []).regs.inPlen.toNat ≤ 1000 ∧ (toSend 11 0 1 []).regs.inKind.extractLsb' 0 8 = 11#8 ∧
      (toSend 11 0 1 []).regs.inPlen ≠ 0) := by decide

theorem witness_DecodeParsesHeader_errors : 1006 < (received [] 1007).regs.inFlen.toNat ∧
    (received [] 5).regs.inFlen.toNat < 6 := by decide

/-- IN_FLEN 6 and 1006 with the header alone written, and an UNWRITTEN last header byte (vectors F5, F6). -/
theorem witness_DecodeParsesHeader :
    6 ≤ (received frameV1 6).regs.inFlen.toNat ∧ (received frameV1 1006).regs.inFlen.toNat ≤ 1006 ∧
    holdsAt (received frameV1 6) 0 frameV1 ∧ holdsAt (received frameV1 1006) 0 frameV1 ∧
    (received [1, 2, 3, 4, 5] 6).fbuf.read 5 = none :=
  ⟨by decide, by decide, holdsAt_withBytes 0 _, holdsAt_withBytes 0 _, by decide⟩

theorem witness_ReservedCommandIsBadCmd : (0x0008 : Half).extractLsb' 3 13 ≠ 0#13 ∧
    5 ≤ ((5 : Half).extractLsb' 0 3).toNat ∧ 5 ≤ ((7 : Half).extractLsb' 0 3).toNat := by decide

theorem witness_ErrorWritesOnlyStatus : isTransaction .encode = false ∧
    ∃ t, exec .encode State.reset = .next t ∧ t.err ≠ 0 := ⟨rfl, _, rfl, by decide⟩

theorem witness_ValidOnlyByVerify : isTransaction .verify = false ∧
    (∃ t, exec .verify (received frameV1 6) = .next t ∧ t.valid = true) ∧
    ∃ t, exec .cksum (received frameV1 6) = .next t ∧ t.valid = false :=
  ⟨rfl, ⟨_, rfl, by decide⟩, _, rfl, by decide⟩

theorem witness_FormatFlagsOnlyByDecode : isTransaction .nop = false ∧
    (∃ t, exec .nop State.reset = .next t) ∧ ∃ t, exec .decode State.reset = .next t ∧ t.err ≠ 0 :=
  ⟨rfl, ⟨_, rfl⟩, _, rfl, by decide⟩

/-- F_OVER with a length field of 1001; an ACK without and with F_ACK; an unknown tag. -/
theorem witness_DecodeFlagImplications :
    (∃ t, exec .decode (received [0x0C, 0, 0, 0, 0x03, 0xE9] 1006) = .next t ∧ t.err = 0 ∧ t.fOver = true) ∧
    (∃ t, exec .decode (received [0x0B, 0, 0, 0, 0, 0] 6) = .next t ∧ t.err = 0 ∧ t.regs.outKind = 11 ∧
      t.fAck = false) ∧
    (∃ t, exec .decode (received [0x0B, 0, 0, 0, 0, 0] 7) = .next t ∧ t.regs.outKind = 11 ∧ t.fAck = true) ∧
    (∃ t, exec .decode (received [0x0D, 0, 0, 0, 0, 0] 6) = .next t ∧ t.err = 0 ∧ t.fKind = true) :=
  ⟨⟨_, rfl, by decide⟩, ⟨_, rfl, by decide⟩, ⟨_, rfl, by decide⟩, _, rfl, by decide⟩

/-- The header cells and another register differ, the operands do not; and both fault over an UNWRITTEN payload. -/
theorem witness_EncodeDependsOnOperandsOnly :
    (∃ s s' t, s = toSend 12 0x2A 2 [0x68, 0x69] ∧
      s' = { s with regs := { s.regs with inFlen := 7 },
                    fbuf := Memory.writeRange [] 0 [9, 9, 9, 9, 9, 9, 0x68, 0x69] } ∧
      s'.regs.inKind = s.regs.inKind ∧ s'.regs.inSeq = s.regs.inSeq ∧ s'.regs.inPlen = s.regs.inPlen ∧
      (∀ k, k < s.regs.inPlen.toNat → s'.fbuf.read (6 + k) = s.fbuf.read (6 + k)) ∧
      exec .encode s = .next t ∧ t.err = 0) ∧
    faultOf (exec .encode (toSend 12 0 1 [])) = some .uninitRead :=
  ⟨⟨_, _, _, rfl, rfl, rfl, rfl, rfl, by decide, rfl, by decide⟩, by decide⟩

theorem witness_EncodedFrameIsInFormat :
    ∃ t, exec .encode (toSend 12 0x2A 2 [0x68, 0x69]) = .next t ∧ t.err = 0 := ⟨_, rfl, by decide⟩

theorem witness_VerifyAcceptsEncodedFrame :
    (∃ t, exec .encode (toSend 11 255 0 []) = .next t ∧ t.err = 0) ∧
    ∃ t, encodeIn { endian := .little, tagData := 12, tagAck := 11 } (toSend 12 0x2A 2 [0x68, 0x69]) = .next t ∧
      t.err = 0 := ⟨⟨_, rfl, by decide⟩, _, rfl, by decide⟩

theorem witness_DecodeInvertsEncode :
    (∃ t, encodeIn Config.params (toSend 11 255 0 []) = .next t ∧ t.err = 0) ∧
    ∃ t, encodeIn { endian := .little, tagData := 1, tagAck := 2 } (toSend 1 0 1 [0xFF]) = .next t ∧ t.err = 0 :=
  ⟨⟨_, rfl, by decide⟩, _, rfl, by decide⟩

theorem witness_SingleByteErrorDetected_verify :
    ∃ t, exec .verify (received frameV1 6) = .next t ∧ t.valid = true ∧ 5 < (received frameV1 6).regs.inFlen.toNat ∧
      (received frameV1 6).fbuf.read 5 ≠ some 0x01 := ⟨_, rfl, by decide⟩

theorem witness_StepRunsHostRequest : ({ State.reset with inputs := [.request 0x4000000] } : State).fault = none ∧
    ({ State.reset with inputs := [.request 0x4000000] } : State).inputs = .request 0x4000000 :: [] := by decide

theorem witness_StepPerformsPendingCommand : busyState.fault = none ∧ busyState.pending = true ∧
    busyState.inputs = [] ∧ State.reset.pending = false ∧
    ({ busyState with inputs := [.engine, .rst] } : State).inputs = .engine :: [.rst] := by decide

theorem witness_PlacedInstructionRunsNext : decodeTableWord 16 0xFFFF = some (.badCmd 7 0x1FFF) ∧
    decodeTableWord 17 0 = some (.rdr 0) ∧ decodeTableWord 32 0xFFFFFFF = some (.wrb 1023 0xFF) := by decide

theorem witness_ResetInputResetsBlock :
    ({ busyState with inputs := [.rst] } : State).inputs = .rst :: [] ∧
    ({ busyState with inputs := [.rst], fault := some .uninitRead } : State).inputs = .rst :: [] := by decide

theorem witness_ModelFaultRecordedForGood :
    nextAction { State.reset with inputs := [.request 0x4000000] } = .run (.rdb 0) ∧
    exec (.rdb 0) (consumeInput { State.reset with inputs := [.request 0x4000000] }) = .fault .uninitRead ∧
    ({ State.reset with fault := some .hazardBusyAccess } : State).fault = some .hazardBusyAccess ∧
    State.reset.inputs.head? ≠ some .rst ∧ State.reset.inputs.length < 1 := ⟨by decide, rfl, by decide⟩

theorem witness_IdleKeepsState : State.reset.fault = none ∧ State.reset.pending = false ∧ State.reset.inputs = [] := by
  decide

theorem witness_QuiescentRunStaysQuiescent : State.reset.quiescent = true ∧
    ({ State.reset with inputs := [.engine, .rst] } : State).quiescent = true := by decide

/-- A busy state that meets the invariant: reset, with a command issued. -/
theorem busyState_inv : busyState.Inv where
  fbuf_wf := rfl
  pending_eq_busy := rfl
  busy_alone := by decide
  idle_status := by decide
  unused_zero := by intro r; cases r <;> decide
  err_known := by decide
  err_no_flags := by decide
  valid_no_flags := by decide
  over_implies_len := by decide
  kind_excludes_ack := by decide
  out_flen_range := by decide
  out_plen_range := by decide

theorem witness_RegisterReadResponds_status : busyState.Inv ∧ busyState.busy = true := ⟨busyState_inv, rfl⟩

theorem witness_StepKeepsStateInvariant : busyState.Inv ∧ ∃ t, step busyState = .next t := ⟨busyState_inv, _, rfl⟩

theorem witness_CellsWrittenExactlyByWrbAndEncode :
    (∃ t, exec (.wrb 1005 0x55) State.reset = .next t) ∧
    (∃ t, exec .encode (toSend 11 0 0 []) = .next t ∧ t.err = 0) ∧
    (∃ t, step { withBytes 0 frameV1 with inputs := [.engine] } = .next t ∧ (withBytes 0 frameV1).fbuf.read 5 ≠ none) ∧
    nextAction { withBytes 0 frameV1 with inputs := [.engine] } ≠ .reset ∧
    ∃ t, step { State.reset with inputs := [.request 0xFED0055] } = .next t ∧ t.fbuf.read 1005 ≠ none :=
  ⟨⟨_, rfl⟩, ⟨_, rfl, by decide⟩, ⟨_, rfl, by decide⟩, by decide, _, rfl, by decide⟩

theorem witness_StatusWrittenAtIssueCompletionReset :
    (∃ t, step { State.reset with inputs := [.request 0x8000000] } = .next t ∧ t.regs.status ≠ 0x0000) ∧
    ∃ t, step busyState = .next t ∧ t.regs.status ≠ busyState.regs.status :=
  ⟨⟨_, rfl, by decide⟩, _, rfl, by decide⟩

theorem witness_DutifulHostMeetsNoBusyHazard :
    ∃ s t, s = { busyState with inputs := [.request 0x0010000] } ∧ s.fault = none ∧ step s = .next t ∧
      (∀ w rest, s.inputs = .request w :: rest → hostMay s w) := by
  refine ⟨_, _, rfl, rfl, rfl, ?_⟩
  intro w rest h
  cases h
  exact .inr (by decide)

/-- The last two cells, and no byte at all. -/
theorem witness_WrbufPlacesBytes :
    (∃ s : State, s.fault = none ∧ s.busy = false ∧ 1004 + ([0x68, 0x69] : List Byte).length ≤ 1006 ∧
      s.inputs = hostEvents (wrBuf 1004 [0x68, 0x69]) ++ [.rst] ∧
      s.inputs = [.request 0xFEC0068, .request 0xFED0069, .rst]) ∧
    1006 + ([] : List Byte).length ≤ 1006 ∧ State.reset.inputs = hostEvents (wrBuf 1006 []) ++ [] :=
  ⟨⟨{ State.reset with inputs := [.request 0xFEC0068, .request 0xFED0069, .rst] }, by decide⟩, by decide⟩

/-- One poll before the engine's turn, none before an empty list, and polls with a reset after them. -/
theorem witness_PollingSeesBusyThenDone :
    (∃ s : State, s.Inv ∧ s.fault = none ∧ s.pending = true ∧
      s.inputs = List.replicate 1 (.request 0x0010000) ++ [.engine] ∧ [Event.engine].head? = some .engine) ∧
    busyState.inputs = List.replicate 0 (.request 0x0010000) ++ [] ∧
    ({ busyState with inputs := [.request 0x0010000, .rst] } : State).inputs =
      List.replicate 1 (.request 0x0010000) ++ [.rst] :=
  ⟨⟨{ busyState with inputs := [.request 0x0010000, .engine] }, busyState_inv.of_eq rfl rfl rfl, by decide⟩, rfl, rfl⟩

theorem witness_PendingCommandIsPerformed : busyState.Inv ∧ busyState.fault = none ∧ busyState.pending = true :=
  ⟨busyState_inv, rfl, rfl⟩

end Sys2Proof.Tests
end

section
/-! SUPPORT. What a command word decodes to, by its fields and by its value (30_encoding.md R85, R89, R91), and the
meaning of the reserved row. -/

namespace Sys2Proof

/-- The words 0 to 4 are the commands, in the order of their OP (30_encoding.md R85). -/
theorem decodeCommand_ofNat_of_lt_five : ∀ k : Fin 5, some (decodeCommand (BitVec.ofNat 16 k)) =
    [Instr.nop, Instr.cksum, Instr.verify, Instr.encode, Instr.decode][(k : Nat)]? := by decide

/-- A word with a nonzero RSVD field or an OP of 5, 6 or 7 decodes to the reserved row with its own two fields
(30_encoding.md R89, R91). -/
theorem decodeCommand_of_reserved {v : Half} (h : cmdRsvd v ≠ 0 ∨ 5 ≤ (cmdOp v).toNat) :
    decodeCommand v = .badCmd (cmdOp v) (cmdRsvd v) := by
  by_cases hr : cmdRsvd v = 0
  · have hop : 5 ≤ (cmdOp v).toNat := h.resolve_left (absurd hr)
    rw [decodeCommand, if_neg (by simp [hr])]
    split
    case h_6 => rfl
    all_goals omega
  · exact if_pos (bne_iff_ne.mpr hr)

/-- The reserved words are those from 5 on, as numbers: RSVD is their quotient by 8 and OP their remainder. -/
theorem reserved_iff_five_le (v : Half) : (cmdRsvd v ≠ 0 ∨ 5 ≤ (cmdOp v).toNat) ↔ 5 ≤ v.toNat := by
  have hz : cmdRsvd v = 0 ↔ v.toNat / 8 = 0 := by
    rw [← cmdRsvd_toNat, ← BitVec.toNat_inj]; rfl
  rw [Ne, hz, cmdOp_toNat]
  omega

namespace Machine

/-- The completion of a reserved command word: STATUS 0x0012, nothing else written (60_exceptions.md R182). -/
theorem exec_badCmd (op : BitVec 3) (rsvd : BitVec 13) (s : State) : exec (.badCmd op rsvd) s =
    .next { s with regs := { s.regs with status := 0x0012 }, pending := false } := by
  have hstatus : completionStatus .badCmd noFlags = 0x0012 := completionStatus_noFlags .badCmd
  calc exec (.badCmd op rsvd) s
    _ = .next { s with regs := s.regs.set .status (completionStatus .badCmd noFlags), pending := false } := rfl
    _ = .next { s with regs := { s.regs with status := 0x0012 }, pending := false } := by rw [hstatus]; rfl

end Machine
end Sys2Proof
end

section
/-! PROOF. The statements on the decode of command words. -/

namespace Sys2Proof.Machine

/-- Settles O4: a word below 5 is one of five values, a word from 5 on is reserved, and a request word's kind is one
of the four transactions. -/
theorem commandAndRequestDecodeTotal : Obligations.CommandAndRequestDecodeTotal := by
  refine ⟨fun v hv => ?_, fun v hv => ?_, isTransaction_decodeRequest⟩
  · simpa using decodeCommand_ofNat_of_lt_five ⟨v.toNat, hv⟩
  · exact ⟨_, _, decodeCommand_of_reserved ((reserved_iff_five_le v).mpr hv)⟩

/-- Settles O29: a reserved word decodes to the reserved row, whose meaning writes STATUS alone. -/
theorem reservedCommandIsBadCmd : Obligations.ReservedCommandIsBadCmd := by
  refine ⟨exec_badCmd, fun v s hv => ?_⟩
  have hdecode : decodeCommand v = .badCmd (cmdOp v) (cmdRsvd v) := decodeCommand_of_reserved hv
  rw [hdecode]
  exact exec_badCmd (cmdOp v) (cmdRsvd v) s

end Sys2Proof.Machine
end

section
/-! SUPPORT. What the checksum says of the bytes it is taken over: when the sum is 0, how much one byte counts in it,
the closed form of the fold, and the checksum of a frame that holds its own (40_checksum.md R113 to R115, R122). -/

namespace Sys2Proof.Machine

/-! ### The sum, by its words and by its bytes -/

theorem wordSum_eq_zero (ws : List Half) : wordSum ws = 0 ↔ ∀ w ∈ ws, w = 0 := by
  induction ws with
  | nil => simp
  | cons w ws ih =>
    have hw : w.toNat = 0 ↔ w = 0 := by rw [← BitVec.toNat_inj]; rfl
    simp [ih, hw]

theorem wordSum_words_eq_zero (e : Endian) : ∀ B : List Byte, wordSum (words e B) = 0 ↔ ∀ b ∈ B, b = 0
  | [] => by simp
  | [b] => by simp [words_single, get16_toNat_eq_zero]
  | b0 :: b1 :: B => by simp [get16_toNat_eq_zero, wordSum_words_eq_zero e B, and_assoc]

/-- How much the byte at index `i` counts in the sum: 256 in the upper half of its word, 1 in the lower
(40_checksum.md R110, R123). -/
def byteWeight (e : Endian) (i : Nat) : Nat :=
  match e with
  | .big => if i % 2 = 0 then 256 else 1
  | .little => if i % 2 = 0 then 1 else 256

theorem byteWeight_cases (e : Endian) (i : Nat) : byteWeight e i = 1 ∨ byteWeight e i = 256 := by
  cases e <;> simp only [byteWeight] <;> split <;> simp

theorem byteWeight_add_two (e : Endian) (i : Nat) : byteWeight e (i + 2) = byteWeight e i := by
  simp [byteWeight]

theorem get16_toNat (e : Endian) (b0 b1 : Byte) :
    (get16 e b0 b1).toNat = byteWeight e 0 * b0.toNat + byteWeight e 1 * b1.toNat := by
  cases e
  · simp [byteWeight, get16_big_toNat, Nat.mul_comm]
  · simp [byteWeight, get16_little_toNat]; omega

/-- Changing one byte moves the sum by its weight times the change (40_checksum.md R123). -/
theorem wordSum_words_set (e : Endian) (b : Byte) : ∀ (B : List Byte) (i : Nat) (h : i < B.length),
    wordSum (words e (B.set i b)) + byteWeight e i * B[i].toNat = wordSum (words e B) + byteWeight e i * b.toNat
  | [b0], 0, _ => by simp [words_single, get16_toNat]; omega
  | b0 :: b1 :: B, 0, _ => by simp [get16_toNat]; omega
  | b0 :: b1 :: B, 1, _ => by simp [get16_toNat]; omega
  | b0 :: b1 :: B, i + 2, h => by
    have ih := wordSum_words_set e b B i (by simpa using h)
    simp [byteWeight_add_two]
    omega

/-! ### The fold and the accumulation -/

/-- The closed form of the fold (40_checksum.md R113): one value in 0..0xFFFF has its remainder and is 0 only for 0. -/
theorem fold_eq_ite (S : Nat) : fold S = if S = 0 then 0 else 1 + (S - 1) % 0xFFFF := by
  have hmod := fold_mod S
  have hle := fold_le S
  have hzero := fold_eq_zero S
  split <;> omega

/-- A fold stands at 0xFFFF exactly over the positive multiples of 0xFFFF (40_checksum.md R115). -/
theorem fold_eq_max (S : Nat) : fold S = 0xFFFF ↔ 0 < S ∧ S % 0xFFFF = 0 := by
  rw [fold_eq_ite]
  split <;> omega

theorem fold_of_le {S : Nat} (h : S ≤ 0xFFFF) : fold S = S := by
  rw [fold_eq_ite]
  split <;> omega

/-- The accumulation from `acc` folds `acc` and the words together: each of its rounds keeps the sum modulo 0xFFFF, and
is 0 only from 0 (40_checksum.md R114). -/
theorem accumulate_eq_fold (ws : List Half) : ∀ {acc : Nat}, acc ≤ 0xFFFF →
    accumulate acc ws = fold (acc + wordSum ws) := by
  induction ws with
  | nil => exact fun h => (fold_of_le h).symm
  | cons w ws ih =>
    intro acc h
    have hw := w.isLt
    rw [accumulate, ih (by split <;> omega), wordSum_cons]
    exact fold_congr (by split <;> omega) (by split <;> omega)

/-! ### The checksum 0 -/

theorem checksum_eq_zero_iff_fold (e : Endian) (B : List Byte) :
    checksum e B = 0 ↔ fold (wordSum (words e B)) = 0xFFFF := by
  have hle := fold_le (wordSum (words e B))
  rw [← BitVec.toNat_inj, checksum_toNat]
  change _ = 0 ↔ _
  omega

theorem checksum_eq_zero (e : Endian) (B : List Byte) :
    checksum e B = 0 ↔ 0 < wordSum (words e B) ∧ wordSum (words e B) % 0xFFFF = 0 := by
  rw [checksum_eq_zero_iff_fold, fold_eq_max]

/-- One changed byte moves the sum by less than 0xFFFF, so off the multiples of 0xFFFF (40_checksum.md R123). -/
theorem checksum_set_ne_zero {e : Endian} {B : List Byte} {i : Nat} {b : Byte} (hi : i < B.length)
    (hB : checksum e B = 0) (hb : B[i] ≠ b) : checksum e (B.set i b) ≠ 0 := by
  intro hset
  obtain ⟨-, hB⟩ := (checksum_eq_zero e B).1 hB
  obtain ⟨-, hset⟩ := (checksum_eq_zero e _).1 hset
  have hsum := wordSum_words_set e b B i hi
  have hne : B[i].toNat ≠ b.toNat := fun h => hb (BitVec.eq_of_toNat_eq h)
  have hold := B[i].isLt
  have hnew := b.isLt
  rcases byteWeight_cases e i with hweight | hweight <;> rw [hweight] at hsum <;> omega

/-- The checksum field adds its value to the sum of the frame (40_checksum.md R122). -/
theorem wordSum_words_frameHeader (e : Endian) (k q : Byte) (c l : Half) (P : List Byte) :
    wordSum (words e (frameHeader e k q c l ++ P)) =
      wordSum (words e (frameHeader e k q 0 l ++ P)) + c.toNat := by
  obtain ⟨c0, c1, hput, hget⟩ := get16_put16 e c
  have hput0 : put16 e 0#16 = [0, 0] := by cases e <;> rfl
  have hget0 : get16 e 0#8 0#8 = 0#16 := get16_zero e
  simp [frameHeader, hput, hput0, hget, hget0]
  omega

/-- A frame is valid: its checksum field fills the sum of the rest up to a positive multiple of 0xFFFF
(40_checksum.md R122). -/
theorem checksum_frameOf (e : Endian) (k q : Byte) (l : Half) (P : List Byte) : checksum e (frameOf e k q l P) = 0 := by
  rw [checksum_eq_zero, frameOf, wordSum_words_frameHeader, frameChecksum, checksum_toNat, fold_eq_ite]
  split <;> omega

end Sys2Proof.Machine
end

section
/-! SUPPORT. CKSUM and VERIFY by what FBUF holds, and what they write, register by register
(40_checksum.md R119 to R121). -/

namespace Sys2Proof.Machine

theorem exec_cksum (s : State) : exec .cksum s = cksumIn .big s := rfl
theorem exec_verify (s : State) : exec .verify s = verifyIn .big s := rfl

/-! ### The two completions -/

theorem complete_range (s : State) : complete .range noFlags s =
    { s with regs := { s.regs with status := 0x0022 }, pending := false } := by
  have hstatus : completionStatus .range noFlags = 0x0022 := completionStatus_noFlags .range
  rw [complete, hstatus]
  rfl

theorem complete_outCsum (f : CompletionFlags) (c : Half) (s : State) :
    complete .none f (s.writeReg .outCsum c) =
      { s with regs := { s.regs with outCsum := c, status := completionStatus .none f }, pending := false } := by
  have hcut : c &&& usedBits .outCsum = c := and_usedBits_full c
  rw [complete, State.writeReg, hcut]
  rfl

/-! ### The meanings, by the length and by the cells of the frame -/

section

variable {e : Endian} {s : State}

theorem cksumIn_of_too_long (h : 1006 < s.regs.inFlen.toNat) : cksumIn e s = .next (complete .range noFlags s) := by
  simp [cksumIn, readReg_inFlen, h]

theorem cksumIn_of_unwritten (hle : s.regs.inFlen.toNat ≤ 1006) (h : frameBytes s = none) :
    cksumIn e s = .fault .uninitRead := by
  simp [cksumIn, readReg_inFlen, h, hle]

theorem cksumIn_of_frameBytes {B : List Byte} (hle : s.regs.inFlen.toNat ≤ 1006) (h : frameBytes s = some B) :
    cksumIn e s = .next (complete .none noFlags (s.writeReg .outCsum (checksum e B))) := by
  simp [cksumIn, readReg_inFlen, h, hle]

theorem verifyIn_of_too_long (h : 1006 < s.regs.inFlen.toNat) : verifyIn e s = .next (complete .range noFlags s) := by
  simp [verifyIn, readReg_inFlen, h]

theorem verifyIn_of_unwritten (hle : s.regs.inFlen.toNat ≤ 1006) (h : frameBytes s = none) :
    verifyIn e s = .fault .uninitRead := by
  simp [verifyIn, readReg_inFlen, h, hle]

theorem verifyIn_of_frameBytes {B : List Byte} (hle : s.regs.inFlen.toNat ≤ 1006) (h : frameBytes s = some B) :
    verifyIn e s = .next (complete .none { noFlags with valid := checksum e B == 0 }
      (s.writeReg .outCsum (checksum e B))) := by
  simp [verifyIn, readReg_inFlen, h, hle]

/-- A VERIFY that answers VALID = 1 read a whole frame of legal length, with checksum 0 (10_state.md R34). -/
theorem verifyIn_valid {t : State} (h : verifyIn e s = .next t) (hv : t.valid = true) :
    ∃ B, s.regs.inFlen.toNat ≤ 1006 ∧ frameBytes s = some B ∧ checksum e B = 0 := by
  rcases verifyIn_cases e s with ⟨-, he⟩ | ⟨-, -, he⟩ | ⟨B, hle, hB, he⟩ <;> rw [he] at h <;> cases h
  · cases (valid_complete _ _ _).symm.trans hv
  · exact ⟨B, hle, hB, beq_iff_eq.mp ((valid_complete _ _ _).symm.trans hv)⟩

end

/-- Writing one cell of a range sets that byte of what MemRead gives. -/
theorem Memory.readRange_write {m : Memory} {i n k : Nat} {B : List Byte} (b : Byte)
    (h : m.readRange i n = some B) : (m.write (i + k) b).readRange i n = some (B.set k b) := by
  obtain ⟨hl, hr⟩ := Memory.readRange_eq_some.1 h
  refine Memory.readRange_eq_some.2 ⟨by simpa using hl, fun j hj => ?_⟩
  rw [Memory.read_write, hr j hj, List.getElem?_set]
  by_cases hjk : k = j
  · simp [hjk, hl, hj]
  · simp [hjk, Ne.symm hjk]

/-- After an ENCODE without error the first OUT_FLEN cells hold the frame of its operands (41_framing.md R135). -/
theorem encodeIn_holds_frame {p : Params} {s t : State} (h : encodeIn p s = .next t) (h0 : t.err = 0) :
    ∃ P, t.regs.outFlen.toNat = 6 + P.length ∧ P.length ≤ 1000 ∧
      holdsAt t 0 (frameOf p.endian (opKind s) (opSeq s) s.regs.inPlen P) := by
  obtain ⟨P, -, hP, ht, hlen, hle⟩ := encodeIn_no_error h h0
  refine ⟨P, ?_, by omega, fun k hk => ?_⟩
  · have hflen : t.regs.outFlen = BitVec.ofNat 16 (6 + s.regs.inPlen.toNat) := by
      rw [ht]
      exact writeFrame_outFlen p.endian P s
    rw [hflen, BitVec.toNat_ofNat, hlen]
    omega
  · rw [Nat.zero_add, ht]
    exact writeFrame_holds_frame hP (by simpa using hk)

end Sys2Proof.Machine
end

section
/-! PROOF. The statements on the checksum function and on CKSUM and VERIFY. -/

namespace Sys2Proof.Machine

/-- Settles O9: the closed form, its value fixed by the three facts a fold keeps, and the sums that are 0. -/
theorem foldClosedForm : Obligations.FoldClosedForm := by
  refine ⟨fold_eq_ite, fun S x hS => ?_, fun e B => ?_⟩
  · have hmod := fold_mod S
    have hle := fold_le S
    have hpos := fold_pos hS
    omega
  · rw [fold_eq_zero]
    exact ⟨wordSum_eq_zero (words e B), wordSum_words_eq_zero e B⟩

/-- Settles O10: the accumulation from 0 is the fold, so it has the fold's three properties. -/
theorem incrementalAccumulationIsFold : Obligations.IncrementalAccumulationIsFold := by
  have hfold : ∀ ws : List Half, accumulate 0 ws = fold (wordSum ws) := fun ws => by
    rw [accumulate_eq_fold ws (Nat.zero_le _), Nat.zero_add]
  refine ⟨fun e B => hfold _, fun ws => ?_⟩
  rw [hfold, fold_eq_zero]
  exact ⟨fold_mod _, fold_le _, wordSum_eq_zero ws⟩

/-- Settles O11: each link of the chain is a law of the fold or of the sum. -/
theorem validityIsPositiveMultiple : Obligations.ValidityIsPositiveMultiple := by
  refine fun e B => ⟨checksum_toNat e B, checksum_eq_zero_iff_fold e B, fold_eq_max _, wordSum_words_eq_zero e B,
    fun hS => ?_⟩
  apply BitVec.eq_of_toNat_eq
  rw [checksum_toNat, hS, fold_zero]
  rfl

/-- Settles O14: a single changed byte is detected by the checksum, and VERIFY reads the sequence with that byte
changed. -/
theorem singleByteErrorDetected : Obligations.SingleByteErrorDetected := by
  refine ⟨fun e B i b hi hB hb => checksum_set_ne_zero hi hB fun h => hb (by simp [hi, h]), ?_⟩
  intro s t k b hexec hvalid hk hb
  obtain ⟨B, hle, hB, hsum⟩ := verifyIn_valid hexec hvalid
  rw [frameBytes, readReg_inFlen] at hB
  obtain ⟨hlen, hcells⟩ := Memory.readRange_eq_some.1 hB
  have hkB : k < B.length := by omega
  have hchanged : frameBytes { s with fbuf := s.fbuf.write k b } = some (B.set k b) := by
    rw [frameBytes, readReg_inFlen]
    simpa using Memory.readRange_write (k := k) b hB
  have hne : checksum .big (B.set k b) ≠ 0 := checksum_set_ne_zero hkB hsum fun h => hb (by
    have := hcells k hk
    simpa [hkB, h] using this)
  refine ⟨_, verifyIn_of_frameBytes hle hchanged, ?_, ?_⟩
  · exact err_complete _ _ _
  · exact (valid_complete _ _ _).trans (beq_eq_false_iff_ne.mpr hne)

/-- Settles O25: CKSUM's three outcomes, by IN_FLEN and the cells it reads. -/
theorem cksumWritesChecksum : Obligations.CksumWritesChecksum := by
  refine ⟨by decide, by decide, fun s => ⟨fun h => ?_, fun hle => ⟨fun B hl hB => ?_, fun h => ?_⟩⟩⟩
  · rw [exec_cksum, cksumIn_of_too_long h, complete_range]
  · have hstatus : completionStatus .none noFlags = 0x0002 := completionStatus_noFlags .none
    rw [exec_cksum, cksumIn_of_frameBytes hle (frameBytes_of_holdsAt hl hB), complete_outCsum, hstatus]
  · rw [exec_cksum, cksumIn_of_unwritten hle (frameBytes_eq_none.2 h)]

/-- Settles O26: VERIFY's three outcomes, the STATUS word of a completion by its VALID bit. -/
theorem verifyWritesValidity : Obligations.VerifyWritesValidity := by
  refine ⟨by decide, by decide, fun s => ⟨fun h => ?_, fun hle => ⟨fun B hl hB => ?_, fun h => ?_⟩⟩⟩
  · rw [exec_verify, verifyIn_of_too_long h, complete_range]
  · rw [exec_verify, verifyIn_of_frameBytes hle (frameBytes_of_holdsAt hl hB), complete_outCsum,
      completionStatus_verify]
    simp
  · rw [exec_verify, verifyIn_of_unwritten hle (frameBytes_eq_none.2 h)]

/-- VERIFY of the frame ENCODE wrote, for every choice of the build parameters (40_checksum.md R122). -/
theorem verifyIn_of_encodeIn {p : Params} {s t : State} (h : encodeIn p s = .next t) (h0 : t.err = 0) :
    ∃ u, verifyIn p.endian { t with regs := { t.regs with inFlen := t.regs.outFlen } } = .next u ∧
      u.regs.outCsum = 0 ∧ u.valid = true := by
  obtain ⟨P, hlen, hle, hheld⟩ := encodeIn_holds_frame h h0
  have hread := frameBytes_of_holdsAt (s := { t with regs := { t.regs with inFlen := t.regs.outFlen } })
    ((frameOf_length ..).trans hlen.symm) hheld
  have hvalid := checksum_frameOf p.endian (opKind s) (opSeq s) s.regs.inPlen P
  refine ⟨_, verifyIn_of_frameBytes (hlen.trans_le (by omega)) hread, ?_, ?_⟩
  · rw [complete_outCsum]
    exact hvalid
  · exact (valid_complete _ _ _).trans (beq_iff_eq.mpr hvalid)

/-- Settles O37: this hardware's commands are the ones of its own parameters. -/
theorem verifyAcceptsEncodedFrame : Obligations.VerifyAcceptsEncodedFrame :=
  ⟨fun _ _ h h0 => verifyIn_of_encodeIn (p := Config.params) h h0, fun _ _ _ h h0 => verifyIn_of_encodeIn h h0⟩

end Sys2Proof.Machine
end

section
/-! SUPPORT. The framing commands: which word NOP has, ENCODE and DECODE by their operands and by the cells they read,
what they write, and the flags and the well-formed packet of a DECODE (41_framing.md R130 to R150). -/

namespace Sys2Proof

theorem decodeCommand_eq_nop (v : Half) : decodeCommand v = .nop ↔ v = 0x0000 := by
  constructor
  · intro h
    by_cases hv : 5 ≤ v.toNat
    · rw [decodeCommand_of_reserved ((reserved_iff_five_le v).mpr hv)] at h
      cases h
    · have hfirst : ∀ k : Fin 5, decodeCommand (BitVec.ofNat 16 k) = .nop → k = 0 := by decide
      have hzero : v.toNat = 0 := congrArg Fin.val (hfirst ⟨v.toNat, by omega⟩ (by simpa using h))
      exact BitVec.eq_of_toNat_eq hzero
  · rintro rfl
    rfl

namespace Machine

theorem exec_encode (s : State) : exec .encode s = encodeIn Config.params s := rfl
theorem exec_decode (s : State) : exec .decode s = decodeIn Config.params s := rfl

/-- A completion without flags writes STATUS alone: DONE and the error code (10_state.md R31, 60_exceptions.md R182). -/
theorem complete_noFlags (c : ErrCode) (s : State) : complete c noFlags s =
    { s with regs := { s.regs with status := 0x0002 + (errValue c).setWidth 16 * 16 }, pending := false } := by
  rw [complete, completionStatus_noFlags]
  rfl

/-! ### ENCODE, by its operands and by the cells of the payload -/

section

variable {p : Params} {k : Byte} {n : Nat}

theorem encodeError_of_too_long (h : 1000 < n) : encodeError p k n = .range := if_pos h

theorem encodeError_of_unknown_kind (hn : n ≤ 1000) (hd : k ≠ p.tagData) (ha : k ≠ p.tagAck) :
    encodeError p k n = .badKind := by
  simp [encodeError, hn, hd, ha]

theorem encodeError_of_ack_payload (hn : n ≤ 1000) (ha : k = p.tagAck) (h0 : n ≠ 0) :
    encodeError p k n = .ackPayload := by
  simp [encodeError, hn, ha, h0]

end

/-- The operands this hardware's ENCODE takes without error (41_framing.md R132, R133). -/
theorem encodeError_params_eq_none {k : Byte} {L : Half} (hL : L.toNat ≤ 1000) (h : k = 12 ∨ (k = 11 ∧ L = 0)) :
    encodeError Config.params k L.toNat = .none := by
  refine (encodeError_eq_none _ _ _).mpr ⟨hL, ?_⟩
  rcases h with rfl | ⟨rfl, rfl⟩
  · exact ⟨.inl rfl, fun h => absurd h (by decide)⟩
  · exact ⟨.inr rfl, fun _ => rfl⟩

section

variable {p : Params} {s : State}

theorem encodeIn_of_error {c : ErrCode} (h : encodeError p (opKind s) s.regs.inPlen.toNat = c) (hc : c ≠ .none) :
    encodeIn p s = .next (complete c noFlags s) := by
  subst h
  rcases encodeIn_cases p s with ⟨-, he⟩ | ⟨h0, -⟩ | ⟨P, h0, -⟩
  · exact he
  · exact absurd h0 hc
  · exact absurd h0 hc

theorem encodeIn_of_unwritten (h : encodeError p (opKind s) s.regs.inPlen.toNat = .none) (hP : payloadBytes s = none) :
    encodeIn p s = .fault .uninitRead := by
  simp [encodeIn, readReg_inPlen, h, hP]

theorem encodeIn_of_payloadBytes {P : List Byte} (h : encodeError p (opKind s) s.regs.inPlen.toNat = .none)
    (hP : payloadBytes s = some P) : encodeIn p s = .next (complete .none noFlags (writeFrame p.endian P s)) := by
  simp [encodeIn, readReg_inPlen, h, hP]

end

/-! ### What ENCODE writes -/

section

variable (e : Endian) (P : List Byte) (s : State)

/-- The header of the frame of a state's operands and a payload, its checksum filled in (41_framing.md R130). -/
theorem writeFrame_holds_header : holdsAt (writeFrame e P s) 0
    (frameHeader e (opKind s) (opSeq s) (writeFrame e P s).regs.outCsum s.regs.inPlen) := by
  intro j hj
  rw [frameHeader_length] at hj
  rw [Nat.zero_add, writeFrame_read, if_pos hj, writeFrame_outCsum]

theorem writeFrame_keeps_cells : keepsCellsOutside 0 6 s (writeFrame e P s) := by
  intro j hj
  rw [writeFrame_read, if_neg (by omega)]

theorem writeFrame_outFlen_toNat (h : s.regs.inPlen.toNat ≤ 1000) :
    (writeFrame e P s).regs.outFlen.toNat = 6 + s.regs.inPlen.toNat := by
  rw [writeFrame_outFlen, BitVec.toNat_ofNat]
  omega

theorem frame_complete_writeFrame (c : ErrCode) (f : CompletionFlags) :
    frame [.status, .outCsum, .outLen, .outFlen] s (complete c f (writeFrame e P s)) := by
  refine ⟨fun r hr => ?_, rfl, rfl⟩
  obtain ⟨hstatus, hout⟩ := not_or.mp (List.mem_cons.not.mp hr)
  rw [complete_regs, RegFile.get_set_ne _ _ hstatus, writeFrame_get e P s hout]

end

/-- An ENCODE without error: legal operands, the header in `FBUF[0..5]`, and OUT_FLEN the length of the frame
(41_framing.md R134). -/
theorem encodeIn_writes {p : Params} {s t : State} (h : encodeIn p s = .next t) (h0 : t.err = 0) :
    s.regs.inPlen.toNat ≤ 1000 ∧ (opKind s = p.tagData ∨ opKind s = p.tagAck) ∧
    (opKind s = p.tagAck → s.regs.inPlen.toNat = 0) ∧
    holdsAt t 0 (frameHeader p.endian (opKind s) (opSeq s) t.regs.outCsum s.regs.inPlen) ∧
    t.regs.outFlen.toNat = 6 + s.regs.inPlen.toNat ∧ keepsCellsOutside 0 6 s t := by
  obtain ⟨P, hnone, -, rfl, -, -⟩ := encodeIn_no_error h h0
  obtain ⟨hle, htag, hack⟩ := (encodeError_eq_none _ _ _).mp hnone
  exact ⟨hle, htag, hack, writeFrame_holds_header p.endian P s, writeFrame_outFlen_toNat p.endian P s hle,
    writeFrame_keeps_cells p.endian P s⟩

/-! ### DECODE, by the length and by the cells of the header -/

theorem decodeError_of_too_long {n : Nat} (h : 1006 < n) : decodeError n = .range := if_pos h

theorem decodeError_of_short {n : Nat} (h : n < 6) : decodeError n = .short := by
  have hle : n ≤ 1006 := by omega
  simp [decodeError, h, hle]

section

variable {p : Params} {s : State}

theorem decodeIn_of_error {c : ErrCode} (h : decodeError s.regs.inFlen.toNat = c) (hc : c ≠ .none) :
    decodeIn p s = .next (complete c noFlags s) := by
  subst h
  rcases decodeIn_cases p s with ⟨-, he⟩ | ⟨h0, -⟩ | ⟨k, q, c0, c1, l0, l1, h0, -⟩
  · exact he
  · exact absurd h0 hc
  · exact absurd h0 hc

theorem decodeIn_of_unwritten (hn : 6 ≤ s.regs.inFlen.toNat ∧ s.regs.inFlen.toNat ≤ 1006)
    (hB : headerBytes s = none) : decodeIn p s = .fault .uninitRead := by
  simp [decodeIn, readReg_inFlen, (decodeError_eq_none _).mpr hn, hB]

theorem decodeIn_of_headerBytes {k q c0 c1 l0 l1 : Byte} (hn : 6 ≤ s.regs.inFlen.toNat ∧ s.regs.inFlen.toNat ≤ 1006)
    (hB : headerBytes s = some [k, q, c0, c1, l0, l1]) :
    decodeIn p s = .next (parseHeader p k q c0 c1 l0 l1 s) := by
  simp [decodeIn, readReg_inFlen, (decodeError_eq_none _).mpr hn, hB]

/-- DECODE of a header as ENCODE writes it reads the checksum and the length back from their two bytes each
(41_framing.md R130, 00_scope.md R9). -/
theorem decodeIn_of_frameHeader {k q : Byte} {c l : Half}
    (hn : 6 ≤ s.regs.inFlen.toNat ∧ s.regs.inFlen.toNat ≤ 1006)
    (hB : headerBytes s = some (frameHeader p.endian k q c l)) :
    ∃ c0 c1 l0 l1, get16 p.endian c0 c1 = c ∧ get16 p.endian l0 l1 = l ∧
      decodeIn p s = .next (parseHeader p k q c0 c1 l0 l1 s) := by
  obtain ⟨c0, c1, hputc, hgetc⟩ := get16_put16 p.endian c
  obtain ⟨l0, l1, hputl, hgetl⟩ := get16_put16 p.endian l
  rw [frameHeader, hputc, hputl] at hB
  exact ⟨c0, c1, l0, l1, hgetc, hgetl, decodeIn_of_headerBytes hn hB⟩

/-- A DECODE without error: its length is legal, and it parsed a written header. -/
theorem decodeIn_no_error {t : State} (h : decodeIn p s = .next t) (h0 : t.err = 0) :
    ∃ k q c0 c1 l0 l1, 6 ≤ s.regs.inFlen.toNat ∧ s.regs.inFlen.toNat ≤ 1006 ∧
      t = parseHeader p k q c0 c1 l0 l1 s := by
  rcases decodeIn_cases p s with ⟨hne, he⟩ | ⟨-, -, he⟩ | ⟨k, q, c0, c1, l0, l1, hnone, -, he⟩ <;>
    rw [he] at h <;> cases h
  · rw [err_complete, errValue_eq_zero] at h0
    exact absurd h0 hne
  · obtain ⟨hlo, hhi⟩ := (decodeError_eq_none _).mp hnone
    exact ⟨k, q, c0, c1, l0, l1, hlo, hhi, rfl⟩

end

/-! ### The results and the STATUS of a DECODE without error, and what it keeps -/

section

variable (p : Params) (k q c0 c1 l0 l1 : Byte) (s : State)

theorem parseHeader_outKind_eq : (parseHeader p k q c0 c1 l0 l1 s).regs.outKind = k.setWidth 16 :=
  setWidth_and_low_byte k

theorem parseHeader_outSeq_eq : (parseHeader p k q c0 c1 l0 l1 s).regs.outSeq = q.setWidth 16 :=
  setWidth_and_low_byte q

theorem parseHeader_outPlen_toNat :
    (parseHeader p k q c0 c1 l0 l1 s).regs.outPlen.toNat = s.regs.inFlen.toNat - 6 := by
  have hlt := s.regs.inFlen.isLt
  rw [parseHeader_outPlen, BitVec.toNat_ofNat]
  omega

@[simp] theorem parseHeader_busy : (parseHeader p k q c0 c1 l0 l1 s).busy = false := busy_complete _ _ _
@[simp] theorem parseHeader_done : (parseHeader p k q c0 c1 l0 l1 s).done = true := done_complete _ _ _
@[simp] theorem parseHeader_valid : (parseHeader p k q c0 c1 l0 l1 s).valid = false := valid_complete _ _ _
@[simp] theorem parseHeader_err : (parseHeader p k q c0 c1 l0 l1 s).err = 0 := err_complete _ _ _

theorem parseHeader_fKind :
    (parseHeader p k q c0 c1 l0 l1 s).fKind = true ↔ k ≠ p.tagData ∧ k ≠ p.tagAck := by
  simp [parseHeader_eq]

theorem parseHeader_fLen : (parseHeader p k q c0 c1 l0 l1 s).fLen = true ↔
    (get16 p.endian l0 l1).toNat ≠ s.regs.inFlen.toNat - 6 := by
  simp [parseHeader_eq, readReg_inFlen]

theorem parseHeader_fOver :
    (parseHeader p k q c0 c1 l0 l1 s).fOver = true ↔ 1000 < (get16 p.endian l0 l1).toNat := by
  simp [parseHeader_eq]

theorem parseHeader_fAck : (parseHeader p k q c0 c1 l0 l1 s).fAck = true ↔
    k = p.tagAck ∧ ((get16 p.endian l0 l1).toNat ≠ 0 ∨ s.regs.inFlen.toNat ≠ 6) := by
  simp [parseHeader_eq, readReg_inFlen]

/-- F_LEN compares the length field with the number of payload bytes (10_state.md R37). -/
theorem parseHeader_fLen_eq_false : (parseHeader p k q c0 c1 l0 l1 s).fLen = false ↔
    (parseHeader p k q c0 c1 l0 l1 s).regs.outLen = (parseHeader p k q c0 c1 l0 l1 s).regs.outPlen := by
  rw [← Bool.not_eq_true, parseHeader_fLen, not_not, ← BitVec.toNat_inj, parseHeader_outLen, parseHeader_outPlen_toNat]

/-- An ACK has F_ACK = 0 exactly with an empty payload and a length field of 0 (41_framing.md R144). -/
theorem parseHeader_fAck_eq_false (hn : 6 ≤ s.regs.inFlen.toNat) :
    (parseHeader p k q c0 c1 l0 l1 s).fAck = false ↔ (k = p.tagAck →
      (parseHeader p k q c0 c1 l0 l1 s).regs.outLen = 0 ∧ (parseHeader p k q c0 c1 l0 l1 s).regs.outPlen = 0) := by
  have hlen : (parseHeader p k q c0 c1 l0 l1 s).regs.outLen = 0 ↔ (get16 p.endian l0 l1).toNat = 0 := by
    rw [parseHeader_outLen, ← BitVec.toNat_inj]
    rfl
  have hplen : (parseHeader p k q c0 c1 l0 l1 s).regs.outPlen = 0 ↔ s.regs.inFlen.toNat = 6 := by
    rw [← BitVec.toNat_inj, parseHeader_outPlen_toNat]
    change _ = 0 ↔ _
    omega
  rw [← Bool.not_eq_true, parseHeader_fAck, hlen, hplen]
  tauto

theorem frame_parseHeader :
    frame [.status, .outKind, .outSeq, .outCsum, .outLen, .outPlen] s (parseHeader p k q c0 c1 l0 l1 s) :=
  ⟨fun _ hr => parseHeader_get p k q c0 c1 l0 l1 s hr, rfl, rfl⟩

/-- The well-formed packet in the terms of its header and of IN_FLEN (41_framing.md R145). -/
theorem wellFormedPacket_parseHeader : (parseHeader p k q c0 c1 l0 l1 s).wellFormedPacket = true ↔
    (k = p.tagData ∨ k = p.tagAck) ∧ (get16 p.endian l0 l1).toNat = s.regs.inFlen.toNat - 6 ∧
    (get16 p.endian l0 l1).toNat ≤ 1000 ∧
    (k = p.tagAck → (get16 p.endian l0 l1).toNat = 0 ∧ s.regs.inFlen.toNat = 6) := by
  simp only [State.wellFormedPacket, parseHeader_done, parseHeader_err, Bool.and_eq_true, Bool.not_eq_true',
    ← Bool.not_eq_true, parseHeader_fKind, parseHeader_fLen, parseHeader_fOver, parseHeader_fAck, beq_self_eq_true,
    not_lt]
  tauto

end

end Machine
end Sys2Proof
end

section
/-! PROOF. The statements on NOP, ENCODE and DECODE. -/

namespace Sys2Proof.Machine

/-- Settles O24: NOP's word is the one below 5 with OP 0, and its meaning is a completion without error. -/
theorem nopCompletesOnly : Obligations.NopCompletesOnly := by
  refine ⟨decodeCommand_eq_nop, by decide, fun s => ?_⟩
  have hexec : exec .nop s = .next (complete .none noFlags s) := rfl
  rw [hexec, complete_noFlags]
  rfl

/-- Settles O27: the three errors by the order of the checks, then the outcome by the cells of the payload. -/
theorem encodeFramesPayload : Obligations.EncodeFramesPayload := by
  refine ⟨by decide, by decide, ?_⟩
  rintro s k q L hk hq rfl
  rw [← opKind_eq] at hk
  rw [← opSeq_eq] at hq
  subst hk hq
  refine ⟨fun hL => ?_, fun hL hd ha => ?_, fun hL ha h0 => ?_, fun hL hlegal => ?_⟩
  · rw [exec_encode, encodeIn_of_error (encodeError_of_too_long hL) nofun, complete_noFlags]
    rfl
  · rw [exec_encode, encodeIn_of_error (encodeError_of_unknown_kind hL hd ha) nofun, complete_noFlags]
    rfl
  · have hpos : s.regs.inPlen.toNat ≠ 0 := fun h => h0 (BitVec.eq_of_toNat_eq h)
    rw [exec_encode, encodeIn_of_error (encodeError_of_ack_payload hL ha hpos) nofun, complete_noFlags]
    rfl
  · have hnone := encodeError_params_eq_none hL hlegal
    refine ⟨fun P hlen hP => ?_, fun h => encodeIn_of_unwritten hnone (payloadBytes_eq_none.mpr h)⟩
    have hexec : exec .encode s = .next (complete .none noFlags (writeFrame .big P s)) :=
      encodeIn_of_payloadBytes hnone (payloadBytes_of_holdsAt hlen hP)
    exact ⟨_, (writeFrame .big P s).regs.outCsum, hexec, writeFrame_outCsum .big P s, writeFrame_holds_header .big P s,
      writeFrame_keeps_cells .big P s, rfl, writeFrame_outLen .big P s, writeFrame_outFlen_toNat .big P s hL,
      completionStatus_noFlags .none, rfl, rfl, frame_complete_writeFrame .big P s .none noFlags⟩

/-- Settles O28: the two errors by the length, then the outcome by the cells of the header. -/
theorem decodeParsesHeader : Obligations.DecodeParsesHeader := by
  refine ⟨by decide, by decide, ?_⟩
  rintro s n rfl
  refine ⟨fun hn => ?_, fun hn => ?_, fun hlo hhi => ⟨fun k q c0 c1 l0 l1 hB => ?_, fun h => ?_⟩⟩
  · rw [exec_decode, decodeIn_of_error (decodeError_of_too_long hn) nofun, complete_noFlags]
    rfl
  · rw [exec_decode, decodeIn_of_error (decodeError_of_short hn) nofun, complete_noFlags]
    rfl
  · have hexec : exec .decode s = .next (parseHeader Config.params k q c0 c1 l0 l1 s) :=
      decodeIn_of_headerBytes ⟨hlo, hhi⟩ (headerBytes_of_holdsAt rfl hB)
    have hcsum : (get16 Config.params.endian c0 c1).toNat = c0.toNat * 256 + c1.toNat := get16_big_toNat c0 c1
    have hlen : (get16 Config.params.endian l0 l1).toNat = l0.toNat * 256 + l1.toNat := get16_big_toNat l0 l1
    refine ⟨_, _, hexec, rfl, parseHeader_outKind_eq .., parseHeader_outSeq_eq .., ?_, ?_,
      parseHeader_outPlen_toNat .., parseHeader_busy .., parseHeader_done .., parseHeader_valid ..,
      parseHeader_err .., parseHeader_fKind .., ?_, ?_, ?_, rfl, rfl, rfl, frame_parseHeader ..⟩
    · rw [parseHeader_outCsum, hcsum]
    · rw [parseHeader_outLen, hlen]
    · rw [parseHeader_fLen, hlen]
    · rw [parseHeader_fOver, hlen]
    · rw [parseHeader_fAck, hlen, params_tagAck]
  · exact decodeIn_of_unwritten ⟨hlo, hhi⟩ (headerBytes_eq_none.mpr h)

/-- Settles O34: F_LEN and F_ACK are read off OUT_LEN and OUT_PLEN, and IN_FLEN bounds OUT_PLEN by 1000. -/
theorem decodeFlagImplications : Obligations.DecodeFlagImplications := by
  intro s t h h0
  obtain ⟨k, q, c0, c1, l0, l1, hlo, hhi, rfl⟩ := decodeIn_no_error h h0
  have hkind : (parseHeader Config.params k q c0 c1 l0 l1 s).regs.outKind = 11 → k = 11 := fun h => by
    rw [parseHeader_outKind_eq] at h
    bv_omega
  have hack := parseHeader_fAck_eq_false Config.params k q c0 c1 l0 l1 s hlo
  refine ⟨fun hover => ?_, fun hkindAck => ?_, fun hkindAck hclear => ?_, fun hunknown => ?_⟩
  · rw [parseHeader_fOver] at hover
    rw [parseHeader_fLen]
    omega
  · rw [hack]
    exact imp_iff_right (hkind hkindAck)
  · obtain ⟨hlen, hplen⟩ := hack.mp hclear (hkind hkindAck)
    exact (parseHeader_fLen_eq_false ..).mpr (hlen.trans hplen.symm)
  · exact hack.mpr fun hk => absurd hk ((parseHeader_fKind ..).mp hunknown).2

/-- DECODE of the frame ENCODE wrote, for every choice of the build parameters (41_framing.md R146). -/
theorem decodeIn_of_encodeIn {p : Params} {s t : State} (h : encodeIn p s = .next t) (h0 : t.err = 0) :
    ∃ u, decodeIn p { t with regs := { t.regs with inFlen := t.regs.outFlen } } = .next u ∧ decodesBack s t u := by
  obtain ⟨hle, htag, hack, hheader, hflen, hcells⟩ := encodeIn_writes h h0
  obtain ⟨c0, c1, l0, l1, hcsum, hlen, hdecode⟩ := decodeIn_of_frameHeader
    (s := { t with regs := { t.regs with inFlen := t.regs.outFlen } }) (by rw [hflen]; omega)
    (headerBytes_of_holdsAt (frameHeader_length ..) hheader)
  refine ⟨_, hdecode, ?_, ?_, ?_, ?_, ?_, ?_, fun j hj => hcells j (.inr hj)⟩
  · rw [parseHeader_outKind_eq, opKind_eq]
  · rw [parseHeader_outSeq_eq, opSeq_eq]
  · rw [parseHeader_outLen, hlen]
  · apply BitVec.eq_of_toNat_eq
    rw [parseHeader_outPlen_toNat, hflen]
    omega
  · rw [parseHeader_outCsum, hcsum]
  · rw [wellFormedPacket_parseHeader, hlen, hflen]
    exact ⟨htag, by omega, hle, fun h => ⟨hack h, by rw [hack h]⟩⟩

/-- Settles O38: this hardware's commands are the ones of its own parameters. -/
theorem decodeInvertsEncode : Obligations.DecodeInvertsEncode :=
  ⟨fun _ _ h h0 => decodeIn_of_encodeIn (p := Config.params) h h0, fun _ _ _ h h0 => decodeIn_of_encodeIn h h0⟩

end Sys2Proof.Machine
end

section
/-! SUPPORT. The host's transactions by rules: the request words that select each of them (30_encoding.md R81), and
what each does while STATUS.BUSY is 1 and while it is 0 (42_host_access.md R162 to R165). -/

namespace Sys2Proof

/-! ### Request words, by their two selector bits -/

theorem decodeRequest_rdr (a : PortAddr) (d : Half) : decodeRequest (0b00#2 ++ a ++ d) = .rdr a := by
  change decodeRequest (requestWord false false a d) = _
  simp [decodeRequest]

theorem decodeRequest_wrr (a : PortAddr) (v : Half) : decodeRequest (0b10#2 ++ a ++ v) = .wrr a v := by
  change decodeRequest (requestWord true false a v) = _
  simp [decodeRequest]

theorem decodeRequest_rdb (i : PortAddr) (d : Half) : decodeRequest (0b01#2 ++ i ++ d) = .rdb i := by
  change decodeRequest (requestWord false true i d) = _
  simp [decodeRequest]

theorem decodeRequest_wrb (i : PortAddr) (x b : Byte) : decodeRequest (0b11#2 ++ i ++ (x ++ b)) = .wrb i b := by
  change decodeRequest (requestWord true true i (x ++ b)) = _
  have hlow : (x ++ b).extractLsb' 0 8 = b := BitVec.extractLsb'_append_eq_right
  simp [decodeRequest, hlow]

namespace Machine

/-! ### Frames of the state's updates -/

theorem frame_refl (rs : List Reg) (s : State) : frame rs s s := ⟨fun _ _ => rfl, rfl, rfl⟩

theorem frame_respond {rs : List Reg} {s t : State} (v : Option Half) (h : frame rs s t) :
    frame rs s (respond v t) := h

theorem frame_writeReg (r : Reg) (v : Half) (s : State) : frame [r] s (s.writeReg r v) :=
  ⟨fun _ hq => RegFile.get_set_ne _ _ (List.mem_singleton.not.mp hq), rfl, rfl⟩

theorem frame_issue (v : Half) (s : State) : frame [.cmd, .status] s (issue v s) := by
  refine ⟨fun r hr => ?_, rfl, rfl⟩
  obtain ⟨hcmd, hstatus⟩ : r ≠ .cmd ∧ r ≠ .status := by simpa using hr
  rw [issue_regs, RegFile.get_set_ne _ _ hstatus, RegFile.get_set_ne _ _ hcmd]

/-! ### Register writes, by their address -/

section

variable (v : Half) (s : State)

theorem registerWrite_cmd : registerWrite 0 v s = issue v s := rfl
theorem registerWrite_inKind : registerWrite 2 v s = s.writeReg .inKind v := rfl
theorem registerWrite_inSeq : registerWrite 3 v s = s.writeReg .inSeq v := rfl
theorem registerWrite_inPlen : registerWrite 4 v s = s.writeReg .inPlen v := rfl
theorem registerWrite_inFlen : registerWrite 5 v s = s.writeReg .inFlen v := rfl

/-- STATUS, the OUT_ registers and the reserved addresses ignore a write (42_host_access.md R163). -/
theorem registerWrite_ignored {a : PortAddr} (h : a = 1 ∨ 6 ≤ a.toNat) : registerWrite a v s = s := by
  have haddr : a.toNat = 1 ∨ 6 ≤ a.toNat := h.imp_left (congrArg BitVec.toNat)
  rcases registerWrite_cases a v s with ⟨ho, -⟩ | ⟨r, hr, ho, -⟩ | ⟨-, hw⟩
  · have hnum : a.toNat = 0 := (regOperand_eq_some a .cmd).mp ho
    omega
  · have hnum := (regOperand_eq_some a r).mp ho
    rcases hr with rfl | rfl | rfl | rfl <;> simp only [regNumber] at hnum <;> omega
  · exact hw

theorem registerWrite_fbuf (a : PortAddr) : (registerWrite a v s).fbuf = s.fbuf := by
  rcases registerWrite_cases a v s with ⟨-, hw⟩ | ⟨r, -, -, hw⟩ | ⟨-, hw⟩ <;> rw [hw]
  · exact issue_fbuf v s
  · exact writeReg_fbuf s r v

/-- Only address 0 issues a command (30_encoding.md R86). -/
theorem registerWrite_pending {a : PortAddr} (h : a ≠ 0) : (registerWrite a v s).pending = s.pending := by
  rcases registerWrite_cases a v s with ⟨ho, -⟩ | ⟨r, -, -, hw⟩ | ⟨-, hw⟩
  · exact absurd (BitVec.eq_of_toNat_eq ((regOperand_eq_some a .cmd).mp ho)) h
  · rw [hw, writeReg_pending]
  · rw [hw]

end

/-! ### The four meanings, while BUSY = 1 and while BUSY = 0 -/

/-- Address 1 names STATUS, and no other does (30_encoding.md R82). -/
theorem regOperand_eq_status (a : PortAddr) : regOperand a = some .status ↔ a = 1 :=
  (regOperand_eq_some a .status).trans (BitVec.toNat_inj (y := 1))

/-- STATUS reads 0x0001 while BUSY = 1 (42_host_access.md R162). -/
theorem registerResponse_status_of_busy {s : State} (hinv : s.Inv) (hb : s.busy = true) :
    registerResponse 1 s = 0x0001 := by
  have hread : registerResponse 1 s = s.regs.status &&& usedBits .status :=
    registerResponse_of_reg (r := .status) rfl
  rw [hread, hinv.busy_alone hb]
  rfl

section

variable {a : PortAddr} {v : Half} {b : Byte} {s : State}

theorem exec_rdr_of_busy (hb : s.busy = true) (ha : a ≠ 1) : exec (.rdr a) s = .fault .hazardBusyAccess :=
  if_pos ⟨hb, (regOperand_eq_status a).not.mpr ha⟩

theorem exec_rdr_of_allowed (h : s.busy = false ∨ a = 1) :
    exec (.rdr a) s = .next (respond (some (registerResponse a s)) s) := by
  rcases execRdr_cases a s with ⟨hb, ho, -⟩ | ⟨-, hnext⟩
  · rcases h with hidle | hstatus
    · exact absurd (hidle.symm.trans hb) Bool.false_ne_true
    · exact absurd ((regOperand_eq_status a).mpr hstatus) ho
  · exact hnext

theorem exec_wrr_of_busy (hb : s.busy = true) : exec (.wrr a v) s = .fault .hazardBusyAccess := if_pos hb

theorem exec_wrr_of_idle (hb : s.busy = false) :
    exec (.wrr a v) s = .next (respond none (registerWrite a v s)) := if_neg (Bool.eq_false_iff.mp hb)

theorem exec_rdb_of_busy (hb : s.busy = true) : exec (.rdb a) s = .fault .hazardBusyAccess := if_pos hb

theorem exec_rdb_outside (hb : s.busy = false) (ha : 1006 ≤ a.toNat) :
    exec (.rdb a) s = .next (respond (some 0) s) := by
  simp [exec, execRdb, fbufOperand, hb, Nat.not_lt.mpr ha]

theorem exec_rdb_inside (hb : s.busy = false) (ha : a.toNat < 1006) : exec (.rdb a) s =
    (s.fbuf.read a.toNat).elim (.fault .uninitRead) fun b => .next (respond (some (b.setWidth 16)) s) := by
  cases hcell : s.fbuf.read a.toNat <;> simp [exec, execRdb, fbufOperand, hb, ha, hcell]

theorem exec_wrb_of_busy (hb : s.busy = true) : exec (.wrb a b) s = .fault .hazardBusyAccess := if_pos hb

theorem exec_wrb_outside (hb : s.busy = false) (ha : 1006 ≤ a.toNat) :
    exec (.wrb a b) s = .next (respond none s) := by
  simp [exec, execWrb, fbufOperand, hb, Nat.not_lt.mpr ha]

theorem exec_wrb_inside (hb : s.busy = false) (ha : a.toNat < 1006) :
    exec (.wrb a b) s = .next (respond none { s with fbuf := s.fbuf.write a.toNat b }) := by
  simp [exec, execWrb, fbufOperand, hb, ha]

end

end Machine
end Sys2Proof
end

section
/-! PROOF. The statements on RDR, WRR, RDB and WRB. -/

namespace Sys2Proof.Machine

/-- Settles O17: a read that BUSY allows answers what its address names, and STATUS is 0x0001 while BUSY = 1. -/
theorem registerReadResponds : Obligations.RegisterReadResponds := by
  intro a s
  refine ⟨decodeRequest_rdr a, exec_rdr_of_busy, fun h => ?_, fun hinv hb => ?_⟩
  · exact ⟨_, exec_rdr_of_allowed h, fun _ => registerResponse_of_reg, registerResponse_reserved⟩
  · rw [exec_rdr_of_allowed (.inr rfl), registerResponse_status_of_busy hinv hb]
    rfl

/-- Settles O18: the write's effect address by address, each with the frame of its update. -/
theorem registerWriteEffect : Obligations.RegisterWriteEffect := by
  intro a v s
  refine ⟨decodeRequest_wrr a v, exec_wrr_of_busy, fun hb => ⟨_, exec_wrr_of_idle hb, rfl, registerWrite_fbuf v s a,
    ?_, registerWrite_pending v s, ?_, ?_, ?_, ?_, fun h => ?_⟩⟩
  · rintro rfl
    rw [registerWrite_cmd]
    exact ⟨rfl, rfl, rfl, frame_respond none (frame_issue v s)⟩
  · rintro rfl
    rw [registerWrite_inKind]
    exact ⟨and_low_byte v, frame_respond none (frame_writeReg .inKind v s)⟩
  · rintro rfl
    rw [registerWrite_inSeq]
    exact ⟨and_low_byte v, frame_respond none (frame_writeReg .inSeq v s)⟩
  · rintro rfl
    rw [registerWrite_inPlen]
    exact ⟨and_usedBits_full v, frame_respond none (frame_writeReg .inPlen v s)⟩
  · rintro rfl
    rw [registerWrite_inFlen]
    exact ⟨and_usedBits_full v, frame_respond none (frame_writeReg .inFlen v s)⟩
  · rw [registerWrite_ignored v s h]
    exact frame_respond none (frame_refl [] s)

/-- Settles O19: by BUSY, by the side of FBUF's end the index is on, and by the cell. -/
theorem bufferReadResponds : Obligations.BufferReadResponds := by
  intro i s
  refine ⟨decodeRequest_rdb i, exec_rdb_of_busy, fun hb => ⟨exec_rdb_outside hb, fun hi => ⟨fun hcell => ?_,
    fun b hcell => ?_⟩⟩⟩ <;> rw [exec_rdb_inside hb hi, hcell] <;> rfl

/-- Settles O20: by BUSY and by the side of FBUF's end the index is on; a cell reads back what was written. -/
theorem bufferWriteEffect : Obligations.BufferWriteEffect := by
  intro i b s
  refine ⟨fun x => decodeRequest_wrb i x b, exec_wrb_of_busy, fun hb => ⟨exec_wrb_outside hb, fun hi => ?_⟩⟩
  refine ⟨_, exec_wrb_inside hb hi, Memory.read_write_same .., fun j hj => ?_, frame_refl [] s, rfl, rfl⟩
  exact Memory.read_write_ne s.fbuf b (by omega)

end Sys2Proof.Machine
end

section
/-! SUPPORT. The outcomes of an instruction by their causes: the error a command's operands call for and the bytes it
reads when none applies (60_exceptions.md R184, 30_encoding.md R93), and the two model faults (R191, R192). -/

namespace Sys2Proof.Machine

/-! ### What decides a command's outcome -/

/-- The one error check of CKSUM and VERIFY (40_checksum.md R119, R121). -/
def frameError (flen : Nat) : ErrCode :=
  if Config.frameMax < flen then .range else .none

/-- The error a command completes with. It reads registers only (60_exceptions.md R184). -/
def commandError (i : Instr) (s : State) : ErrCode :=
  match i with
  | .cksum | .verify => frameError s.regs.inFlen.toNat
  | .encode => encodeError Config.params (opKind s) s.regs.inPlen.toNat
  | .decode => decodeError s.regs.inFlen.toNat
  | .badCmd _ _ => .badCmd
  | .nop | .rdr _ | .wrr _ _ | .rdb _ | .wrb _ _ => .none

/-- The bytes of FBUF a command without error reads, none if a cell of its range is UNWRITTEN (30_encoding.md R93). -/
def commandBytes (i : Instr) (s : State) : Option (List Byte) :=
  match i with
  | .cksum | .verify => frameBytes s
  | .encode => payloadBytes s
  | .decode => headerBytes s
  | .nop | .badCmd _ _ | .rdr _ | .wrr _ _ | .rdb _ | .wrb _ _ => some []

theorem frameError_of_too_long {n : Nat} (h : 1006 < n) : frameError n = .range := if_pos h

theorem frameError_eq_none (n : Nat) : frameError n = .none ↔ n ≤ 1006 := by
  rw [frameError, frameMax_eq]
  split <;> simp <;> omega

/-- The error check does not look at FBUF (60_exceptions.md R182, R184). -/
theorem commandError_fbuf (i : Instr) (s : State) (m : Memory) :
    commandError i { s with fbuf := m } = commandError i s := by
  cases i <;> rfl

/-- An ENCODE that passes its error check and meets an UNWRITTEN cell has a payload, so its kind is DATA
(41_framing.md R133). -/
theorem encode_reads_unwritten (s : State) :
    (commandError .encode s = .none ∧ commandBytes .encode s = none) ↔
      s.regs.inPlen.toNat ≤ 1000 ∧ s.regs.inKind.extractLsb' 0 8 = 12#8 ∧
        ∃ k, k < s.regs.inPlen.toNat ∧ s.fbuf.read (6 + k) = none := by
  simp only [commandError, commandBytes, encodeError_eq_none, payloadBytes_eq_none, opKind_eq, params_tagData,
    params_tagAck]
  constructor
  · rintro ⟨⟨hle, htag, hack⟩, k, hk, hcell⟩
    have hdata : s.regs.inKind.extractLsb' 0 8 = 12#8 := htag.resolve_right fun h => by
      have hempty := hack h
      omega
    exact ⟨hle, hdata, k, hk, hcell⟩
  · rintro ⟨hle, hdata, hcell⟩
    exact ⟨⟨hle, .inl hdata, fun hack => absurd (hdata.symm.trans hack) (by decide)⟩, hcell⟩

/-! ### The outcomes of a command and of a transaction -/

section

variable {i : Instr} {s : State}

/-- What a command can do, by its error and by its bytes: complete with the error, fault, or complete without one. -/
theorem command_outcomes (hi : isTransaction i = false) :
    (commandError i s ≠ .none ∧ exec i s = .next (complete (commandError i s) noFlags s)) ∨
    (commandError i s = .none ∧ commandBytes i s = none ∧ exec i s = .fault .uninitRead) ∨
    (∃ B t, commandError i s = .none ∧ commandBytes i s = some B ∧ exec i s = .next t ∧ t.err = 0) := by
  cases i with
  | rdr _ => cases hi
  | wrr _ _ => cases hi
  | rdb _ => cases hi
  | wrb _ _ => cases hi
  | nop => exact .inr (.inr ⟨_, _, rfl, rfl, rfl, err_complete _ _ _⟩)
  | badCmd _ _ => exact .inl ⟨nofun, rfl⟩
  | cksum =>
    rcases cksumIn_cases .big s with ⟨hlen, he⟩ | ⟨hlen, hB, he⟩ | ⟨B, hlen, hB, he⟩
    · rw [commandError, frameError_of_too_long hlen]
      exact .inl ⟨nofun, he⟩
    · exact .inr (.inl ⟨(frameError_eq_none _).mpr hlen, hB, he⟩)
    · exact .inr (.inr ⟨_, _, (frameError_eq_none _).mpr hlen, hB, he, err_complete _ _ _⟩)
  | verify =>
    rcases verifyIn_cases .big s with ⟨hlen, he⟩ | ⟨hlen, hB, he⟩ | ⟨B, hlen, hB, he⟩
    · rw [commandError, frameError_of_too_long hlen]
      exact .inl ⟨nofun, he⟩
    · exact .inr (.inl ⟨(frameError_eq_none _).mpr hlen, hB, he⟩)
    · exact .inr (.inr ⟨_, _, (frameError_eq_none _).mpr hlen, hB, he, err_complete _ _ _⟩)
  | encode =>
    rcases encodeIn_cases Config.params s with herror | hfault | ⟨P, hnone, hP, he⟩
    · exact .inl herror
    · exact .inr (.inl hfault)
    · exact .inr (.inr ⟨P, _, hnone, hP, he, err_complete _ _ _⟩)
  | decode =>
    rcases decodeIn_cases Config.params s with herror | hfault | ⟨k, q, c0, c1, l0, l1, hnone, hB, he⟩
    · exact .inl herror
    · exact .inr (.inl hfault)
    · exact .inr (.inr ⟨_, _, hnone, hB, he, parseHeader_err ..⟩)

/-- What a transaction can do: meet the busy hazard, read an UNWRITTEN cell, or answer (42_host_access.md R162 to
R165). -/
theorem transaction_outcomes (hi : isTransaction i = true) :
    (s.busy = true ∧ i ≠ .rdr 1 ∧ exec i s = .fault .hazardBusyAccess) ∨
    (∃ a, i = .rdb a ∧ s.busy = false ∧ a.toNat < 1006 ∧ s.fbuf.read a.toNat = none ∧
      exec i s = .fault .uninitRead) ∨
    ((s.busy = false ∨ i = .rdr 1) ∧ ∃ t, exec i s = .next t) := by
  cases i with
  | rdr a =>
    rcases execRdr_cases a s with ⟨hb, ho, he⟩ | ⟨hallowed, he⟩
    · exact .inl ⟨hb, fun h => ho ((regOperand_eq_status a).mpr (Instr.rdr.inj h)), he⟩
    · exact .inr (.inr ⟨hallowed.imp_right fun ho => congrArg Instr.rdr ((regOperand_eq_status a).mp ho), _, he⟩)
  | wrr a v =>
    rcases execWrr_cases a v s with ⟨hb, he⟩ | ⟨hb, he⟩
    · exact .inl ⟨hb, nofun, he⟩
    · exact .inr (.inr ⟨.inl hb, _, he⟩)
  | rdb a =>
    rcases execRdb_cases a s with ⟨hb, he⟩ | ⟨hb, -, he⟩ | hfault | ⟨b, hb, -, -, he⟩
    · exact .inl ⟨hb, nofun, he⟩
    · exact .inr (.inr ⟨.inl hb, _, he⟩)
    · exact .inr (.inl ⟨a, rfl, hfault⟩)
    · exact .inr (.inr ⟨.inl hb, _, he⟩)
  | wrb a b =>
    rcases execWrb_cases a b s with ⟨hb, he⟩ | ⟨hb, -, he⟩ | ⟨hb, -, he⟩
    · exact .inl ⟨hb, nofun, he⟩
    · exact .inr (.inr ⟨.inl hb, _, he⟩)
    · exact .inr (.inr ⟨.inl hb, _, he⟩)
  | nop => cases hi
  | cksum => cases hi
  | verify => cases hi
  | encode => cases hi
  | decode => cases hi
  | badCmd _ _ => cases hi

/-! ### Errors and faults, by their causes -/

theorem exec_of_commandError (hi : isTransaction i = false) (h : commandError i s ≠ .none) :
    exec i s = .next (complete (commandError i s) noFlags s) := by
  rcases command_outcomes (s := s) hi with ⟨-, he⟩ | ⟨h0, -⟩ | ⟨B, t, h0, -⟩
  · exact he
  · exact absurd h0 h
  · exact absurd h0 h

/-- A completion with a nonzero ERR comes from the error check (60_exceptions.md R183). -/
theorem commandError_of_err {t : State} (hi : isTransaction i = false) (h : exec i s = .next t) (herr : t.err ≠ 0) :
    commandError i s ≠ .none := by
  rcases command_outcomes (s := s) hi with ⟨hne, -⟩ | ⟨-, -, he⟩ | ⟨B, u, -, -, he, h0⟩
  · exact hne
  · cases he.symm.trans h
  · cases he.symm.trans h
    exact absurd h0 herr

theorem command_uninitRead (hi : isTransaction i = false) :
    exec i s = .fault .uninitRead ↔ commandError i s = .none ∧ commandBytes i s = none := by
  rcases command_outcomes (s := s) hi with ⟨hne, he⟩ | ⟨h0, hB, he⟩ | ⟨B, t, h0, hB, he, -⟩
  · simp [he, hne]
  · simp [he, h0, hB]
  · simp [he, hB]

theorem command_ne_hazard (hi : isTransaction i = false) : exec i s ≠ .fault .hazardBusyAccess := by
  rcases command_outcomes (s := s) hi with ⟨-, he⟩ | ⟨-, -, he⟩ | ⟨B, t, -, -, he, -⟩ <;> simp [he]

theorem transaction_hazard (hi : isTransaction i = true) :
    exec i s = .fault .hazardBusyAccess ↔ s.busy = true ∧ i ≠ .rdr 1 := by
  rcases transaction_outcomes (s := s) hi with ⟨hb, hne, he⟩ | ⟨a, -, hb, -, -, he⟩ | ⟨hidle | hstatus, t, he⟩
  · exact iff_of_true he ⟨hb, hne⟩
  · simp [he, hb]
  · simp [he, hidle]
  · exact iff_of_false (by simp [he]) fun h => h.2 hstatus

theorem transaction_uninitRead (hi : isTransaction i = true) :
    exec i s = .fault .uninitRead ↔
      ∃ a : PortAddr, i = .rdb a ∧ s.busy = false ∧ a.toNat < 1006 ∧ s.fbuf.read a.toNat = none := by
  constructor
  · intro h
    rcases transaction_outcomes (s := s) hi with ⟨-, -, he⟩ | ⟨a, hrdb, hb, ha, hcell, -⟩ | ⟨-, t, he⟩
    · cases he.symm.trans h
    · exact ⟨a, hrdb, hb, ha, hcell⟩
    · cases he.symm.trans h
  · rintro ⟨a, rfl, hb, ha, hcell⟩
    rw [exec_rdb_inside hb ha, hcell]
    rfl

end

end Sys2Proof.Machine
end

section
/-! PROOF. The statements on errors and model faults. -/

namespace Sys2Proof.Machine

/-- Settles O21: a transaction meets the hazard exactly while BUSY = 1 and not as RDR STATUS, and a command never. -/
theorem busyHazardExactly : Obligations.BusyHazardExactly := by
  intro i s
  cases hi : isTransaction i with
  | true => simpa using transaction_hazard hi
  | false => simpa using command_ne_hazard hi

/-- Settles O30: a nonzero ERR comes from the error check, which reads registers only and whose completion writes STATUS
with no flag. -/
theorem errorWritesOnlyStatus : Obligations.ErrorWritesOnlyStatus := by
  intro i s t hi h herr
  have hne : commandError i s ≠ .none := commandError_of_err hi h herr
  obtain rfl : t = complete (commandError i s) noFlags s := by
    cases h.symm.trans (exec_of_commandError hi hne)
    rfl
  refine ⟨rfl, valid_complete _ _ _, fKind_complete _ _ _, fLen_complete _ _ _, fOver_complete _ _ _,
    fAck_complete _ _ _, fun m => ?_⟩
  rw [exec_of_commandError hi (by rwa [commandError_fbuf]), commandError_fbuf]
  rfl

/-- Settles O31: among the transactions RDB of an UNWRITTEN cell, among the commands those that pass their error check
and read a range with an UNWRITTEN cell. -/
theorem uninitReadExactly : Obligations.UninitReadExactly := by
  intro i s
  cases i with
  | rdr _ => rw [transaction_uninitRead rfl]; simp
  | wrr _ _ => rw [transaction_uninitRead rfl]; simp
  | rdb _ => rw [transaction_uninitRead rfl]; simp
  | wrb _ _ => rw [transaction_uninitRead rfl]; simp
  | nop => rw [command_uninitRead rfl]; simp [commandBytes]
  | cksum => rw [command_uninitRead rfl]; simp [commandError, commandBytes, frameError_eq_none, frameBytes_eq_none]
  | verify => rw [command_uninitRead rfl]; simp [commandError, commandBytes, frameError_eq_none, frameBytes_eq_none]
  | encode => rw [command_uninitRead rfl, encode_reads_unwritten]; simp
  | decode =>
    rw [command_uninitRead rfl]
    simp [commandError, commandBytes, decodeError_eq_none, headerBytes_eq_none, and_assoc]
  | badCmd _ _ => rw [command_uninitRead rfl]; simp [commandBytes]

end Sys2Proof.Machine
end

section
/-! PROOF. The statement on the reset state. -/

namespace Sys2Proof.Machine

/-- Every port address answers 0 in the reset state, the reserved ones included (70_reset_and_hazards.md R213). -/
theorem registerResponse_reset (a : PortAddr) : registerResponse a State.reset = 0 := by
  cases hr : regOperand a with
  | none => exact registerResponse_reserved ((regOperand_eq_none a).mp hr)
  | some r =>
    calc registerResponse a State.reset
      _ = RegFile.reset.get r &&& usedBits r := registerResponse_of_reg ((regOperand_eq_some a r).mp hr)
      _ = 0 := by rw [RegFile.get_reset]; exact BitVec.zero_and

/-- Settles O43: nothing in the reset state differs from 0 or UNWRITTEN, and no RDR meets a BUSY there. -/
theorem resetStateAsSpecified : Obligations.ResetStateAsSpecified := by
  refine ⟨RegFile.get_reset, rfl, Memory.read_nil, fun a => ?_⟩
  have hidle : State.reset.busy = false := rfl
  rw [exec_rdr_of_allowed (.inl hidle), registerResponse_reset]
  rfl

end Sys2Proof.Machine
end

section
/-! SUPPORT. The words of the encoder read back: a command word by the reserved row's condition, a request word by its
selector bits and under a mask of its WDATA (30_encoding.md R80 to R85), and the numbered form of both. -/

namespace Sys2Proof

/-- The words of the reserved row decode to it with both fields (30_encoding.md R89, R91). -/
theorem decodeCommand_commandWord {op : BitVec 3} {rsvd : BitVec 13} (h : isReservedCommand op rsvd = true) :
    decodeCommand (commandWord op rsvd) = .badCmd op rsvd := by
  have hreserved : rsvd ≠ 0 ∨ 5 ≤ op.toNat := by simpa [isReservedCommand] using h
  simpa using decodeCommand_of_reserved (v := commandWord op rsvd) (by simpa using hreserved)

/-- A byte put in a wider word is its low byte (30_encoding.md R83). -/
theorem extractLsb'_setWidth_byte (b : Byte) : (b.setWidth 16).extractLsb' 0 8 = b := by
  rw [BitVec.extractLsb'_setWidth_of_le (by omega), BitVec.extractLsb'_eq_self]

theorem decode_encode {i : Instr} (h : i.wellFormed = true) : decode (encode i) = i := by
  cases i with
  | rdr a => simp [encode, decode, decodeRequest]
  | wrr a v => simp [encode, decode, decodeRequest]
  | rdb a => simp [encode, decode, decodeRequest]
  | wrb a b => simp [encode, decode, decodeRequest, extractLsb'_setWidth_byte]
  | nop => rfl
  | cksum => rfl
  | verify => rfl
  | encode => rfl
  | decode => rfl
  | badCmd op rsvd => exact decodeCommand_commandWord h

/-- The numbered form of an encoding decodes as the encoding does (notes/assumptions/14.md). -/
theorem decodeTableWord_toNat (x : Encoded) : decodeTableWord x.nbits x.toNat = some (decode x) := by
  cases x with
  | request w => simp [decodeTableWord, decodeWord, Encoded.nbits, Encoded.toNat, w.isLt]
  | command v => simp [decodeTableWord, decodeWord, Encoded.nbits, Encoded.toNat, v.isLt]

/-- No two command words decode to the same instruction: each is the encoding of its own (30_encoding.md R90). -/
theorem encode_decodeCommand (v : Half) : encode (decodeCommand v) = .command v := by
  by_cases hv : 5 ≤ v.toNat
  · rw [decodeCommand_of_reserved ((reserved_iff_five_le v).mpr hv), encode, commandWord_fields]
  · have hfirst : ∀ k : Fin 5, encode (decodeCommand (BitVec.ofNat 16 k)) = .command (BitVec.ofNat 16 k) := by decide
    simpa using hfirst ⟨v.toNat, by omega⟩

/-- A mask that keeps all but WDATA masks WDATA. -/
theorem requestWord_and_wdata (we space : Bool) (a : PortAddr) (v m : Half) :
    requestWord we space a v &&& (BitVec.allOnes 12 ++ m) = requestWord we space a (v &&& m) := by
  have hand : (BitVec.ofBool we ++ BitVec.ofBool space ++ a ++ v) &&& (BitVec.allOnes 12 ++ m) =
      ((BitVec.ofBool we ++ BitVec.ofBool space ++ a) &&& BitVec.allOnes 12) ++ (v &&& m) := BitVec.and_append
  rw [BitVec.and_allOnes] at hand
  exact hand

theorem requestWord_and_noWdata (we space : Bool) (a : PortAddr) (v : Half) :
    requestWord we space a v &&& 0xFFF0000 = requestWord we space a 0 :=
  (requestWord_and_wdata we space a v 0).trans (congrArg (requestWord we space a) BitVec.and_zero)

theorem requestWord_and_lowWdata (we space : Bool) (a : PortAddr) (v : Half) :
    requestWord we space a v &&& 0xFFF00FF = requestWord we space a ((v.extractLsb' 0 8).setWidth 16) := by
  rw [← Machine.and_low_byte]
  exact requestWord_and_wdata we space a v 0x00FF

theorem request_selector (w : Request) :
    w.extractLsb' 26 2 = BitVec.ofBool (reqWe w) ++ BitVec.ofBool (reqSpace w) := by
  obtain ⟨we, space, a, v, rfl⟩ : ∃ we space a v, w = requestWord we space a v :=
    ⟨_, _, _, _, (requestWord_fields w).symm⟩
  have hassoc : requestWord we space a v = (BitVec.ofBool we ++ BitVec.ofBool space) ++ (a ++ v) :=
    BitVec.append_assoc
  rw [reqWe_requestWord, reqSpace_requestWord, hassoc]
  exact BitVec.extractLsb'_append_eq_left

/-- WDATA[7:0] is bits [7:0] of the request word (30_encoding.md R80, R83). -/
theorem reqWdata_low_byte (w : Request) : (reqWdata w).extractLsb' 0 8 = w.extractLsb' 0 8 := by
  apply BitVec.eq_of_getLsbD_eq
  intro j hj
  simp [reqWdata, hj]

end Sys2Proof
end

section
/-! PROOF. The statements on encodings. -/

namespace Sys2Proof

/-- Settles O1: the operands of each constructor are read back from its words, the reserved row's by its condition. -/
theorem decodeOfEncodedInstruction : Obligations.DecodeOfEncodedInstruction :=
  fun _ h => decode_encode h

/-- Settles O2: the numbering loses no bit, so the number decodes to what its encoding does. -/
theorem tableWordOfEncodedInstruction : Obligations.TableWordOfEncodedInstruction := fun i h => by
  rw [decodeTableWord_toNat, decode_encode h]

/-- Settles O3: a command word is rebuilt from its fields, a request word from the fields its transaction uses. -/
theorem encodeOfDecodedWord : Obligations.EncodeOfDecodedWord := by
  refine ⟨encode_decodeCommand, fun w => ?_⟩
  change encode (decodeRequest w) = .request
    (if reqWe w then (if reqSpace w then w &&& 0xFFF00FF else w) else w &&& 0xFFF0000)
  obtain ⟨we, space, a, v, rfl⟩ : ∃ we space a v, w = requestWord we space a v :=
    ⟨_, _, _, _, (requestWord_fields w).symm⟩
  rw [reqWe_requestWord, reqSpace_requestWord, requestWord_and_noWdata, requestWord_and_lowWdata]
  cases we <;> cases space <;> simp [decodeRequest, encode]

/-- Settles O5: bits [27:26] are WE and SPACE, and each of their four values is one of the decoder's cases. -/
theorem requestKindBySelectorBits : Obligations.RequestKindBySelectorBits := by
  intro w
  rw [request_selector, decodeRequest, reqWdata_low_byte]
  cases reqWe w <;> cases reqSpace w <;> simp [reqAddr, reqWdata]

/-- Settles O6: each of the ten words is decoded. -/
theorem specExampleWordsDecode : Obligations.SpecExampleWordsDecode := by
  unfold Obligations.SpecExampleWordsDecode
  decide

/-- Settles O7: each of the five request words is computed. -/
theorem commandPseudoRequestWords : Obligations.CommandPseudoRequestWords := by
  unfold Obligations.CommandPseudoRequestWords
  decide

end Sys2Proof
end

section
/-! SUPPORT. The invariant in two parts: what it says of STATUS and the pending command, and what it says of the other
registers and FBUF. Each update of the state keeps the second part; an issue and a completion establish the first. -/

namespace Sys2Proof.Machine

/-- The part of the invariant that does not speak of STATUS and the pending command (10_state.md R23, R26, R44, R45). -/
structure State.DataInv (s : State) : Prop where
  fbuf_wf : s.fbuf.wf = true
  unused_zero : ∀ r, r ≠ .status → s.regs.get r &&& ~~~(usedBits r) = 0
  out_flen_range : s.regs.outFlen = 0 ∨ (6 ≤ s.regs.outFlen.toNat ∧ s.regs.outFlen.toNat ≤ 1006)
  out_plen_range : s.regs.outPlen.toNat ≤ 1000

/-- The code and the flags a completion may have (10_state.md R34, R36 to R39, 41_framing.md R144, 60_exceptions.md
R182). -/
structure CompletionFlags.Legal (c : ErrCode) (f : CompletionFlags) : Prop where
  err_no_flags : c ≠ .none → f = noFlags
  valid_no_flags : f.valid = true → f.fKind = false ∧ f.fLen = false ∧ f.fOver = false ∧ f.fAck = false
  over_implies_len : f.fOver = true → f.fLen = true
  kind_excludes_ack : f.fKind = true → f.fAck = false

theorem State.Inv.data {s : State} (h : s.Inv) : s.DataInv :=
  ⟨h.fbuf_wf, fun r _ => h.unused_zero r, h.out_flen_range, h.out_plen_range⟩

/-! ### Updates that keep STATUS and the pending command -/

/-- The invariant after an update that writes neither STATUS nor the pending command. -/
theorem State.Inv.of_data {s t : State} (h : s.Inv) (hd : t.DataInv) (hstatus : t.regs.status = s.regs.status)
    (hpending : t.pending = s.pending) : t.Inv := by
  obtain ⟨-, pending_eq_busy, busy_alone, idle_status, unused_zero, err_known, err_no_flags, valid_no_flags,
    over_implies_len, kind_excludes_ack, -, -⟩ := h
  have hunused := unused_zero .status
  simp only [State.busy, State.done, State.valid, State.err, State.fKind, State.fLen, State.fOver, State.fAck,
    RegFile.get, ← hstatus, ← hpending] at *
  refine ⟨hd.fbuf_wf, pending_eq_busy, busy_alone, idle_status, fun r => ?_, err_known, err_no_flags, valid_no_flags,
    over_implies_len, kind_excludes_ack, hd.out_flen_range, hd.out_plen_range⟩
  by_cases hr : r = .status
  · subst hr
    exact hunused
  · exact hd.unused_zero r hr

section

variable {s : State}

/-- A register store keeps the data invariant if the value is in the range the register has (10_state.md R26, R44,
R45). -/
theorem State.DataInv.writeReg {r : Reg} {v : Half} (h : s.DataInv)
    (hflen : r = .outFlen → 6 ≤ v.toNat ∧ v.toNat ≤ 1006) (hplen : r = .outPlen → v.toNat ≤ 1000) :
    (s.writeReg r v).DataInv := by
  have hget (q : Reg) : (s.writeReg r v).regs.get q = if q = r then v &&& usedBits r else s.regs.get q :=
    RegFile.get_set s.regs r q _
  refine ⟨h.fbuf_wf, fun q hq => ?_, ?_, ?_⟩
  · rw [hget]
    split
    case isTrue hqr => rw [hqr, BitVec.and_assoc, BitVec.and_not_self]; exact BitVec.and_zero
    case isFalse => exact h.unused_zero q hq
  · have hout : (s.writeReg r v).regs.outFlen = if .outFlen = r then v &&& usedBits r else s.regs.outFlen :=
      hget .outFlen
    rw [hout]
    split
    case isTrue hr => subst hr; rw [usedBits, and_usedBits_full]; exact .inr (hflen rfl)
    case isFalse => exact h.out_flen_range
  · have hout : (s.writeReg r v).regs.outPlen = if .outPlen = r then v &&& usedBits r else s.regs.outPlen :=
      hget .outPlen
    rw [hout]
    split
    case isTrue hr => subst hr; rw [usedBits, and_usedBits_full]; exact hplen rfl
    case isFalse => exact h.out_plen_range

theorem State.DataInv.withFbuf {m : Memory} (h : s.DataInv) (hm : m.wf = true) :
    State.DataInv { s with fbuf := m } :=
  ⟨hm, h.unused_zero, h.out_flen_range, h.out_plen_range⟩

/-! ### Issue, completion, reset -/

/-- The data invariant does not look at what a write of STATUS and of the pending command changes. -/
theorem State.DataInv.withStatus {v : Half} {b : Bool} (h : s.DataInv) :
    State.DataInv { s with regs := s.regs.set .status v, pending := b } := by
  refine ⟨h.fbuf_wf, fun r hr => ?_, h.out_flen_range, h.out_plen_range⟩
  rw [RegFile.get_set_ne _ _ hr]
  exact h.unused_zero r hr

theorem inv_issue (v : Half) (h : s.DataInv) : (issue v s).Inv := by
  have hd : (issue v s).DataInv := by
    have hcmd := (h.writeReg (r := .cmd) (v := v) nofun nofun).withStatus (v := issueStatus) (b := true)
    rwa [State.writeReg, usedBits, and_usedBits_full] at hcmd
  have herr : (issue v s).err = 0 := show issueStatus.extractLsb' 4 4 = 0 by decide
  have hvalid : (issue v s).valid = false := show issueStatus.getLsbD 2 = false by decide
  have hover : (issue v s).fOver = false := show issueStatus.getLsbD 10 = false by decide
  have hkind : (issue v s).fKind = false := show issueStatus.getLsbD 8 = false by decide
  refine
    { fbuf_wf := hd.fbuf_wf
      pending_eq_busy := (busy_issue v s).symm
      busy_alone := fun _ => rfl
      idle_status := ?_
      unused_zero := fun r => ?_
      err_known := ?_
      err_no_flags := fun hne => absurd herr hne
      valid_no_flags := ?_
      over_implies_len := ?_
      kind_excludes_ack := ?_
      out_flen_range := hd.out_flen_range
      out_plen_range := hd.out_plen_range }
  · simp
  · by_cases hr : r = .status
    · subst hr
      exact show issueStatus &&& ~~~(usedBits .status) = 0 by decide
    · exact hd.unused_zero r hr
  · rw [herr]
    decide
  · simp [hvalid]
  · simp [hover]
  · simp [hkind]

theorem inv_complete {c : ErrCode} {f : CompletionFlags} (hd : s.DataInv) (hf : f.Legal c) :
    (complete c f s).Inv := by
  have hdone : (complete c f s).DataInv := hd.withStatus
  refine
    { fbuf_wf := hdone.fbuf_wf
      pending_eq_busy := (busy_complete c f s).symm
      busy_alone := ?_
      idle_status := ?_
      unused_zero := fun r => ?_
      err_known := ?_
      err_no_flags := fun herr => ?_
      valid_no_flags := ?_
      over_implies_len := ?_
      kind_excludes_ack := ?_
      out_flen_range := hdone.out_flen_range
      out_plen_range := hdone.out_plen_range }
  · simp
  · simp
  · by_cases hr : r = .status
    · subst hr
      exact completionStatus_unused c f
    · exact hdone.unused_zero r hr
  · rw [err_complete]
    exact errValue_le c
  · rw [err_complete, ne_eq, errValue_eq_zero] at herr
    rw [hf.err_no_flags herr]
    simp [noFlags]
  · simpa using hf.valid_no_flags
  · simpa using hf.over_implies_len
  · simpa using hf.kind_excludes_ack

end

theorem inv_reset : State.reset.Inv where
  fbuf_wf := rfl
  pending_eq_busy := rfl
  busy_alone := nofun
  idle_status := fun _ _ => rfl
  unused_zero := fun r => by cases r <;> rfl
  err_known := Nat.zero_le 5
  err_no_flags := fun herr => absurd rfl herr
  valid_no_flags := nofun
  over_implies_len := nofun
  kind_excludes_ack := nofun
  out_flen_range := .inl rfl
  out_plen_range := Nat.zero_le 1000

/-! ### The flags of the completions -/

theorem noFlags_legal (c : ErrCode) : noFlags.Legal c := ⟨fun _ => rfl, nofun, nofun, nofun⟩

theorem verifyFlags_legal (v : Bool) : CompletionFlags.Legal .none { noFlags with valid := v } :=
  ⟨fun h => absurd rfl h, fun _ => ⟨rfl, rfl, rfl, rfl⟩, nofun, nofun⟩

/-- With a legal IN_FLEN the payload has at most 1000 bytes, so a length field above that differs from it
(41_framing.md R144). -/
theorem decodeFlags_legal (p : Params) (k : Byte) {len n : Nat} (hn : n ≤ 1006) :
    (decodeFlags p k len n).Legal .none := by
  refine ⟨fun h => absurd rfl h, nofun, fun hover => ?_, fun hkind => ?_⟩
  · have hlen : 1000 < len := by simpa using hover
    have hne : len ≠ n - 6 := by omega
    simpa using hne
  · have hack : k ≠ p.tagAck := by
      simp only [decodeFlags_fKind, Bool.and_eq_true, bne_iff_ne] at hkind
      exact hkind.2
    simp [hack]

/-! ### What runs keeps the invariant -/

theorem transaction_keeps_inv {i : Instr} {s t : State} (hi : isTransaction i = true) (h : exec i s = .next t)
    (hinv : s.Inv) : t.Inv := by
  obtain ⟨v, u, rfl, hu⟩ := transaction_cases hi h
  suffices u.Inv from this.of_eq rfl rfl rfl
  rcases hu with rfl | ⟨-, w, -, -, -, rfl⟩ | ⟨-, w, r, -, hr, -, -, rfl⟩ | ⟨a, b, -, -, ha, rfl⟩
  · exact hinv
  · exact inv_issue w hinv.data
  · have hd : (s.writeReg r w).DataInv := by
      rcases hr with rfl | rfl | rfl | rfl <;> exact hinv.data.writeReg nofun nofun
    have hstatus : (s.writeReg r w).regs.status = s.regs.status := by
      rcases hr with rfl | rfl | rfl | rfl <;> rfl
    exact hinv.of_data hd hstatus rfl
  · exact hinv.of_data (hinv.data.withFbuf (Memory.wf_write b hinv.fbuf_wf ha)) rfl rfl

theorem dataInv_writeFrame {s : State} (e : Endian) (P : List Byte) (h : s.DataInv)
    (hlen : s.regs.inPlen.toNat ≤ 1000) : (writeFrame e P s).DataInv := by
  have hflen : 6 ≤ (BitVec.ofNat 16 (6 + (opPlen s).toNat)).toNat ∧
      (BitVec.ofNat 16 (6 + (opPlen s).toNat)).toNat ≤ 1006 := by
    rw [readReg_inPlen, BitVec.toNat_ofNat]
    omega
  have hm : (s.fbuf.writeRange 0 (frameHeader e (opKind s) (opSeq s)
      (frameChecksum e (opKind s) (opSeq s) (opPlen s) P) (opPlen s))).wf = true :=
    Memory.wf_writeRange _ h.fbuf_wf (by rw [frameHeader_length]; omega)
  rw [writeFrame]
  exact .writeReg (.writeReg (.writeReg (h.withFbuf hm) nofun nofun) nofun nofun) (fun _ => hflen) nofun

theorem inv_parseHeader {s : State} (p : Params) (k q c0 c1 l0 l1 : Byte) (h : s.DataInv)
    (hlen : s.regs.inFlen.toNat ≤ 1006) : (parseHeader p k q c0 c1 l0 l1 s).Inv := by
  have hplen : (BitVec.ofNat 16 ((opFlen s).toNat - 6)).toNat ≤ 1000 := by
    rw [readReg_inFlen, BitVec.toNat_ofNat]
    omega
  rw [parseHeader_eq]
  refine inv_complete (.writeReg (.writeReg (.writeReg (.writeReg (.writeReg h nofun nofun) nofun nofun) nofun nofun)
    nofun nofun) nofun fun _ => hplen) (decodeFlags_legal p k ?_)
  rwa [readReg_inFlen]

theorem inv_of_command {i : Instr} {s t : State} (hi : isTransaction i = false) (h : exec i s = .next t)
    (hd : s.DataInv) : t.Inv := by
  cases i with
  | rdr _ => cases hi
  | wrr _ _ => cases hi
  | rdb _ => cases hi
  | wrb _ _ => cases hi
  | nop => cases h; exact inv_complete hd (noFlags_legal _)
  | badCmd _ _ => cases h; exact inv_complete hd (noFlags_legal _)
  | cksum =>
    rw [exec_cksum] at h
    rcases cksumIn_cases .big s with ⟨-, he⟩ | ⟨-, -, he⟩ | ⟨B, -, -, he⟩ <;> rw [he] at h <;> cases h
    · exact inv_complete hd (noFlags_legal _)
    · exact inv_complete (hd.writeReg nofun nofun) (noFlags_legal _)
  | verify =>
    rw [exec_verify] at h
    rcases verifyIn_cases .big s with ⟨-, he⟩ | ⟨-, -, he⟩ | ⟨B, -, -, he⟩ <;> rw [he] at h <;> cases h
    · exact inv_complete hd (noFlags_legal _)
    · exact inv_complete (hd.writeReg nofun nofun) (verifyFlags_legal _)
  | encode =>
    rw [exec_encode] at h
    rcases encodeIn_cases Config.params s with ⟨-, he⟩ | ⟨-, -, he⟩ | ⟨P, hnone, -, he⟩ <;> rw [he] at h <;> cases h
    · exact inv_complete hd (noFlags_legal _)
    · have hlen := ((encodeError_eq_none _ _ _).mp hnone).1
      exact inv_complete (dataInv_writeFrame .big P hd hlen) (noFlags_legal _)
  | decode =>
    rw [exec_decode] at h
    rcases decodeIn_cases Config.params s with ⟨-, he⟩ | ⟨-, -, he⟩ | ⟨k, q, c0, c1, l0, l1, hnone, -, he⟩ <;>
      rw [he] at h <;> cases h
    · exact inv_complete hd (noFlags_legal _)
    · exact inv_parseHeader _ k q c0 c1 l0 l1 hd ((decodeError_eq_none _).mp hnone).2

theorem exec_keeps_inv {i : Instr} {s t : State} (h : exec i s = .next t) (hinv : s.Inv) : t.Inv := by
  cases hi : isTransaction i with
  | true => exact transaction_keeps_inv hi h hinv
  | false => exact inv_of_command hi h hinv.data

theorem step_keeps_inv {s t : State} (h : step s = .next t) (hinv : s.Inv) : t.Inv := by
  have hconsumed : (consumeInput s).Inv := hinv.of_eq rfl rfl rfl
  rcases step_cases h with ⟨-, rfl⟩ | ⟨-, rfl⟩ | ⟨i, -, hexec⟩ | ⟨i, r, -, -, rfl⟩
  · exact inv_reset.of_eq rfl rfl rfl
  · exact hconsumed
  · exact exec_keeps_inv hexec hconsumed
  · exact hconsumed.of_eq rfl rfl rfl

end Sys2Proof.Machine
end

section
/-! PROOF. The statements on the invariant. -/

namespace Sys2Proof.Machine

/-- Settles O48: every clause is read off the zeros of the reset state. -/
theorem resetMeetsStateInvariant : Obligations.ResetMeetsStateInvariant := inv_reset

/-- Settles O49: reset establishes the invariant, what runs keeps it, and taking an input or marking a fault changes
nothing it speaks of. -/
theorem stepKeepsStateInvariant : Obligations.StepKeepsStateInvariant := fun _ _ hinv h => step_keeps_inv h hinv

end Sys2Proof.Machine
end

section
/-! SUPPORT. The words of a byte sequence one by one, and how its sum changes with the byte order, with the order and
grouping of the words, and with words replaced or appended (40_checksum.md R110, R116, R118, R124). -/

namespace Sys2Proof.Machine

/-! ### Word formation -/

theorem words_length (e : Endian) : ∀ B : List Byte, (words e B).length = (B.length + 1) / 2
  | [] => rfl
  | [b] => by simp [words_single]
  | b0 :: b1 :: B => by
    rw [words_cons_cons, List.length_cons, words_length e B]
    simp only [List.length_cons]
    omega

theorem words_getElem? (e : Endian) : ∀ (B : List Byte) (i : Nat), 2 * i < B.length →
    (words e B)[i]? = some (get16 e (B.getD (2 * i) 0) (B.getD (2 * i + 1) 0))
  | [b], 0, _ => by simp [words_single]
  | b0 :: b1 :: B, 0, _ => by simp
  | b0 :: b1 :: B, i + 1, h => by
    have ih := words_getElem? e B i (by simpa [Nat.mul_add] using h)
    simpa [Nat.mul_add] using ih

theorem get16_big_zero (b : Byte) : get16 .big b 0 = BitVec.ofNat 16 (b.toNat * 256) := by
  apply BitVec.eq_of_toNat_eq
  have hb := b.isLt
  have hzero : (0 : Byte).toNat = 0 := rfl
  rw [get16_big_toNat, BitVec.toNat_ofNat, hzero]
  omega

theorem get16_little_zero (b : Byte) : get16 .little b 0 = b.setWidth 16 := by
  apply BitVec.eq_of_toNat_eq
  have hb := b.isLt
  have hzero : (0 : Byte).toNat = 0 := rfl
  rw [get16_little_toNat, BitVec.toNat_setWidth, hzero]
  omega

/-! ### Order and grouping -/

theorem wordSum_perm {ws ws' : List Half} (h : ws.Perm ws') : wordSum ws = wordSum ws' := by
  induction h with
  | nil => rfl
  | cons w _ ih => rw [wordSum_cons, wordSum_cons, ih]
  | swap w w' ws => simp only [wordSum_cons]; omega
  | trans _ _ ih ih' => exact ih.trans ih'

theorem fold_add_fold (S T : Nat) : fold (fold S + fold T) = fold (S + T) := by
  have hS := fold_mod S
  have hT := fold_mod T
  have hS0 := fold_eq_zero S
  have hT0 := fold_eq_zero T
  exact fold_congr (by omega) (by omega)

theorem wordSum_words_replicate_ff (e : Endian) (n : Nat) :
    wordSum (words e (List.replicate (2 * n) 0xFF)) = n * 0xFFFF := by
  have hword : (get16 e 0xFF 0xFF).toNat = 0xFFFF := by cases e <;> rfl
  induction n with
  | zero => rfl
  | succ n ih =>
    rw [Nat.mul_succ, List.replicate_succ, List.replicate_succ, words_cons_cons, wordSum_cons, hword, ih]
    omega

/-! ### The byte order -/

theorem swap16_toNat (x : Half) : (swap16 x).toNat = x.toNat % 256 * 256 + x.toNat / 256 := by
  have hx := x.isLt
  calc (swap16 x).toNat
    _ = (x.extractLsb' 0 8).toNat * 256 + (x.extractLsb' 8 8).toNat := get16_big_toNat _ _
    _ = x.toNat % 256 * 256 + x.toNat / 256 := by
      simp only [BitVec.extractLsb'_toNat, Nat.shiftRight_eq_div_pow]
      omega

/-- Each word swapped is 256 times itself modulo 0xFFFF, and so is the sum (40_checksum.md R118). -/
theorem wordSum_words_little_mod : ∀ B : List Byte,
    wordSum (words .little B) % 0xFFFF = 256 * wordSum (words .big B) % 0xFFFF
  | [] => rfl
  | [b] => by simp [words_single, get16_big_toNat, get16_little_toNat]; omega
  | b0 :: b1 :: B => by
    have ih := wordSum_words_little_mod B
    simp only [words_cons_cons, wordSum_cons, get16_big_toNat, get16_little_toNat]
    omega

/-- The folds of the two byte orders are each other's swap: both sides are 0 together and have the same remainder
(40_checksum.md R118). -/
theorem fold_words_little (B : List Byte) : fold (wordSum (words .little B)) =
    fold (wordSum (words .big B)) % 256 * 256 + fold (wordSum (words .big B)) / 256 := by
  have hzero : wordSum (words .little B) = 0 ↔ wordSum (words .big B) = 0 := by
    rw [wordSum_words_eq_zero, wordSum_words_eq_zero]
  have hmod := wordSum_words_little_mod B
  have hl := fold_mod (wordSum (words .little B))
  have hb := fold_mod (wordSum (words .big B))
  have hl0 := fold_eq_zero (wordSum (words .little B))
  have hb0 := fold_eq_zero (wordSum (words .big B))
  have hlle := fold_le (wordSum (words .little B))
  have hble := fold_le (wordSum (words .big B))
  omega

theorem checksum_little (B : List Byte) : checksum .little B = swap16 (checksum .big B) := by
  apply BitVec.eq_of_toNat_eq
  have hle := fold_le (wordSum (words .big B))
  rw [swap16_toNat, checksum_toNat, checksum_toNat, fold_words_little]
  omega

theorem extractLsb'_low_swap16 (x : Half) : (swap16 x).extractLsb' 0 8 = x.extractLsb' 8 8 :=
  BitVec.extractLsb'_append_eq_right

theorem extractLsb'_high_swap16 (x : Half) : (swap16 x).extractLsb' 8 8 = x.extractLsb' 0 8 :=
  BitVec.extractLsb'_append_eq_left

theorem put16_little_swap16 (x : Half) : put16 .little (swap16 x) = put16 .big x := by
  rw [put16, put16, extractLsb'_low_swap16, extractLsb'_high_swap16]

theorem swap16_eq_zero (x : Half) : swap16 x = 0 ↔ x = 0 := by
  have hx := x.isLt
  rw [← BitVec.toNat_inj, ← BitVec.toNat_inj, swap16_toNat]
  change _ = 0 ↔ _ = 0
  omega

/-- The two byte orders write the same checksum field (40_checksum.md R118). -/
theorem put16_checksum (B : List Byte) : put16 .little (checksum .little B) = put16 .big (checksum .big B) := by
  rw [checksum_little, put16_little_swap16]

theorem put16_little_eq_big (v : Half) : put16 .little v = put16 .big v ↔ v.extractLsb' 8 8 = v.extractLsb' 0 8 := by
  simp only [put16, List.cons.injEq, and_true]
  exact ⟨fun h => h.2, fun h => ⟨h.symm, h⟩⟩

theorem frameOf_little_eq_big (k q : Byte) (L : Half) (P : List Byte) :
    frameOf .little k q L P = frameOf .big k q L P ↔ L.extractLsb' 8 8 = L.extractLsb' 0 8 := by
  rw [← put16_little_eq_big]
  constructor
  · intro h
    simp only [frameOf, frameHeader, List.append_assoc] at h
    have hlength := List.append_inj_right (List.append_cancel_left h) (by simp)
    exact List.append_cancel_right hlength
  · intro hL
    have hcovered : frameHeader .little k q 0 L ++ P = frameHeader .big k q 0 L ++ P := by
      rw [frameHeader, frameHeader, hL]
      rfl
    rw [frameOf, frameOf, frameHeader, frameHeader, hL, frameChecksum, frameChecksum, hcovered, put16_checksum]

/-! ### Changes of the words -/

theorem checksum_congr {e : Endian} {B B' : List Byte} (h : wordSum (words e B) = wordSum (words e B')) :
    checksum e B = checksum e B' := by
  rw [checksum, checksum, h]

/-- The sum over a word at an even offset. -/
theorem wordSum_words_around {A : List Byte} (e : Endian) (hA : A.length % 2 = 0) (b0 b1 : Byte) (Z : List Byte) :
    wordSum (words e (A ++ [b0, b1] ++ Z)) = wordSum (words e A) + (get16 e b0 b1).toNat + wordSum (words e Z) := by
  rw [List.append_assoc, words_append e hA, wordSum_append, List.cons_append, List.cons_append, List.nil_append,
    words_cons_cons, wordSum_cons, Nat.add_assoc]

theorem wordSum_words_append_zeros (e : Endian) (k : Nat) : ∀ B : List Byte,
    wordSum (words e (B ++ List.replicate k 0)) = wordSum (words e B)
  | [] => by
    rw [List.nil_append, words_nil, wordSum_nil, wordSum_words_eq_zero]
    exact fun b hb => List.eq_of_mem_replicate hb
  | [b] => by
    cases k with
    | zero => rw [List.replicate_zero, List.append_nil]
    | succ k =>
      have hzeros : wordSum (words e (List.replicate k 0)) = 0 :=
        (wordSum_words_eq_zero e _).mpr fun b hb => List.eq_of_mem_replicate hb
      rw [List.replicate_succ, List.singleton_append, words_cons_cons, wordSum_cons, hzeros, words_single, wordSum_cons,
        wordSum_nil]
  | b0 :: b1 :: B => by
    rw [List.cons_append, List.cons_append, words_cons_cons, wordSum_cons, wordSum_words_append_zeros e k B,
      words_cons_cons, wordSum_cons]

end Sys2Proof.Machine
end

section
/-! PROOF. The statements on word formation, the byte order and the undetected changes. -/

namespace Sys2Proof.Machine

/-- Settles O8: words are formed two bytes at a time, and a last byte alone is in the upper or lower half of its word. -/
theorem wordFormation : Obligations.WordFormation :=
  fun e B => ⟨words_length e B, words_getElem? e B, fun b => ⟨get16_big_zero b, get16_little_zero b⟩⟩

/-- Settles O12: a sum of naturals has no order, a fold keeps what the next one needs, and 503 words of at most 0xFFFF
bound the sum of a frame. -/
theorem sumOrderAndGroupingFree : Obligations.SumOrderAndGroupingFree := by
  refine ⟨fun ws ws' h => congrArg fold (wordSum_perm h), fun ws ws' => ?_, fun e B hB => ?_, fun e => ?_⟩
  · rw [fold_add_fold, wordSum_append]
  · have hle := wordSum_le (words e B)
    rw [words_length] at hle
    omega
  · exact wordSum_words_replicate_ff e 503

/-- Settles O13: the sums of the two orders differ by the factor 256 modulo 0xFFFF, so the checksum fields are the same
bytes and the length field alone tells the frames apart. -/
theorem byteOrderSwapsChecksum : Obligations.ByteOrderSwapsChecksum := by
  refine ⟨fun B => ⟨checksum_little B, put16_checksum B, ?_⟩, frameOf_little_eq_big⟩
  rw [checksum_little, swap16_eq_zero]

/-- Settles O15: the first and fourth change keep the sum, the others keep its remainder and that it is positive. -/
theorem undetectedChangesKeepValidity : Obligations.UndetectedChangesKeepValidity := by
  intro e
  have hones : (get16 e 0xFF 0xFF).toNat = 0xFFFF := by cases e <;> rfl
  have hzeros : (get16 e 0x00 0x00).toNat = 0 := by cases e <;> rfl
  refine ⟨fun A M Z a0 a1 b0 b1 hA hM => checksum_congr ?_, fun A Z hA h => ?_, fun A Z hA hne h => ?_,
    fun B k => checksum_congr (wordSum_words_append_zeros e k B), fun B B' hB hB' h => ?_⟩
  · have hA' (c0 c1 : Byte) : (A ++ [c0, c1] ++ M).length % 2 = 0 := by
      simp only [List.length_append, List.length_cons, List.length_nil]
      omega
    rw [wordSum_words_around e (hA' a0 a1), wordSum_words_around e (hA' b0 b1), wordSum_words_around e hA,
      wordSum_words_around e hA]
    omega
  · rw [checksum_eq_zero, wordSum_words_around e hA] at h ⊢
    rw [hzeros] at h
    rw [hones]
    omega
  · have hpos : wordSum (words e (A ++ Z)) ≠ 0 := by
      obtain ⟨b, hb, hb0⟩ := hne
      exact fun h0 => hb0 ((wordSum_words_eq_zero e _).mp h0 b hb)
    rw [words_append e hA, wordSum_append] at hpos
    rw [checksum_eq_zero, wordSum_words_around e hA] at h ⊢
    rw [hones] at h
    rw [hzeros]
    omega
  · rw [checksum, checksum, fold_congr h (by omega)]

end Sys2Proof.Machine
end

section
/-! SUPPORT. What a transaction that answers keeps, what the completions of VERIFY and ENCODE depend on, and the frames
ENCODE builds (20_memory.md R69, 10_state.md R34, 41_framing.md R131, R135). -/

namespace Sys2Proof.Machine

/-! ### Transactions that answer -/

theorem RegFile.set_set_same (f : RegFile) (r : Reg) (v : Half) : (f.set r v).set r v = f.set r v := by
  cases r <;> rfl

theorem writeReg_respond_writeReg (r : Reg) (v : Half) (s : State) :
    (respond none (s.writeReg r v)).writeReg r v = respond none (s.writeReg r v) :=
  congrArg (fun f => { respond none (s.writeReg r v) with regs := f }) (RegFile.set_set_same s.regs r _)

/-- A transaction that answers met no BUSY, or is RDR STATUS (42_host_access.md R171, R172). -/
theorem transaction_allowed {i : Instr} {s t : State} (hi : isTransaction i = true) (h : exec i s = .next t) :
    s.busy = false ∨ i = .rdr 1 := by
  rcases transaction_outcomes (s := s) hi with ⟨-, -, he⟩ | ⟨a, -, hb, -⟩ | ⟨hallowed, -⟩
  · cases he.symm.trans h
  · exact .inl hb
  · exact hallowed

/-- A register write but that of CMD is a store in one input register, or nothing, whatever the state
(42_host_access.md R163). -/
theorem registerWrite_of_ne_cmd {a : PortAddr} (v : Half) (ha : a ≠ 0) :
    (∃ r, r ≠ .status ∧ ∀ s, registerWrite a v s = s.writeReg r v) ∨ ∀ s, registerWrite a v s = s := by
  have haddr : a = 2 ∨ a = 3 ∨ a = 4 ∨ a = 5 ∨ a = 1 ∨ 6 ≤ a.toNat := by bv_omega
  rcases haddr with rfl | rfl | rfl | rfl | hignored
  · exact .inl ⟨.inKind, nofun, registerWrite_inKind v⟩
  · exact .inl ⟨.inSeq, nofun, registerWrite_inSeq v⟩
  · exact .inl ⟨.inPlen, nofun, registerWrite_inPlen v⟩
  · exact .inl ⟨.inFlen, nofun, registerWrite_inFlen v⟩
  · exact .inr fun s => registerWrite_ignored v s hignored

section

variable {a : PortAddr} {v : Half} {b : Byte} {s t : State}

theorem exec_rdr_idempotent (h : exec (.rdr a) s = .next t) : exec (.rdr a) t = .next t := by
  have hallowed : s.busy = false ∨ a = 1 := (transaction_allowed rfl h).imp_right Instr.rdr.inj
  rw [exec_rdr_of_allowed hallowed] at h
  cases h
  exact exec_rdr_of_allowed (s := respond (some (registerResponse a s)) s) hallowed

theorem exec_wrr_idempotent (ha : a ≠ 0) (h : exec (.wrr a v) s = .next t) : exec (.wrr a v) t = .next t := by
  have hb : s.busy = false := (transaction_allowed rfl h).resolve_right nofun
  rw [exec_wrr_of_idle hb] at h
  cases h
  rcases registerWrite_of_ne_cmd v ha with ⟨r, hr, hwrite⟩ | hwrite
  · have hidle : (respond none (s.writeReg r v)).busy = false := by rw [busy_respond, busy_writeReg s v hr, hb]
    rw [hwrite, exec_wrr_of_idle hidle, hwrite, writeReg_respond_writeReg]
    rfl
  · rw [hwrite, exec_wrr_of_idle (by rwa [busy_respond]), hwrite]
    rfl

theorem exec_rdb_idempotent (h : exec (.rdb a) s = .next t) : exec (.rdb a) t = .next t := by
  have hb : s.busy = false := (transaction_allowed rfl h).resolve_right nofun
  rcases execRdb_cases a s with ⟨hbusy, -⟩ | ⟨-, ha, he⟩ | ⟨-, -, -, he⟩ | ⟨b, -, ha, hcell, he⟩
  · rw [hb] at hbusy
    cases hbusy
  · cases he.symm.trans h
    exact exec_rdb_outside (s := respond (some 0) s) hb ha
  · cases he.symm.trans h
  · cases he.symm.trans h
    rw [exec_rdb_inside (by rwa [busy_respond]) ha, respond_fbuf, hcell]
    rfl

theorem exec_wrb_idempotent (h : exec (.wrb a b) s = .next t) : exec (.wrb a b) t = .next t := by
  have hb : s.busy = false := (transaction_allowed rfl h).resolve_right nofun
  rcases execWrb_cases a b s with ⟨hbusy, -⟩ | ⟨-, ha, he⟩ | ⟨-, ha, he⟩
  · rw [hb] at hbusy
    cases hbusy
  · cases he.symm.trans h
    exact exec_wrb_outside (s := respond none s) hb ha
  · cases he.symm.trans h
    rw [exec_wrb_inside (by rw [busy_respond]; exact hb) ha, respond_fbuf, Memory.write_write_same]
    rfl

end

/-! ### What the completions depend on -/

theorem exec_verify_valid {s t : State} (h : exec .verify s = .next t) :
    t.valid = true ↔ t.err = 0 ∧ t.regs.outCsum = 0x0000 := by
  rw [exec_verify] at h
  rcases verifyIn_cases .big s with ⟨-, he⟩ | ⟨-, -, he⟩ | ⟨B, -, -, he⟩ <;> rw [he] at h <;> cases h
  · rw [valid_complete, err_complete, errValue_eq_zero]
    simp [noFlags]
  · rw [valid_complete, err_complete, errValue_eq_zero, complete_outCsum]
    simp

/-- The operands of ENCODE decide its error check and the bytes it reads (41_framing.md R131). -/
theorem payloadBytes_congr {s s' : State} (hplen : s'.regs.inPlen = s.regs.inPlen)
    (hcells : ∀ k, k < s.regs.inPlen.toNat → s'.fbuf.read (6 + k) = s.fbuf.read (6 + k)) :
    payloadBytes s' = payloadBytes s := by
  rw [payloadBytes, payloadBytes, readReg_inPlen, readReg_inPlen, hplen]
  exact Memory.readRange_congr hcells

/-- The results and the header of ENCODE are those of its operands and its payload (41_framing.md R131). -/
theorem writeFrame_congr (e : Endian) (P : List Byte) {s s' : State} (hk : opKind s' = opKind s)
    (hq : opSeq s' = opSeq s) (hplen : s'.regs.inPlen = s.regs.inPlen) :
    (writeFrame e P s').regs.outCsum = (writeFrame e P s).regs.outCsum ∧
    (writeFrame e P s').regs.outLen = (writeFrame e P s).regs.outLen ∧
    (writeFrame e P s').regs.outFlen = (writeFrame e P s).regs.outFlen ∧
    ∀ k, k < 6 → (writeFrame e P s').fbuf.read k = (writeFrame e P s).fbuf.read k := by
  simp only [writeFrame_outCsum, writeFrame_outLen, writeFrame_outFlen, writeFrame_read, hk, hq, hplen]
  exact ⟨trivial, trivial, trivial, fun k hk6 => by rw [if_pos hk6, if_pos hk6]⟩

theorem isFrame_frameOf {p : Params} {k : Byte} (q : Byte) {L : Half} {P : List Byte} (hlen : P.length = L.toNat)
    (hle : L.toNat ≤ 1000) (htag : k = p.tagData ∨ k = p.tagAck) (hack : k = p.tagAck → L.toNat = 0) :
    isFrame p (frameOf p.endian k q L P) = true := by
  obtain ⟨c0, c1, hputc, -⟩ := get16_put16 p.endian (frameChecksum p.endian k q L P)
  obtain ⟨l0, l1, hputl, hgetl⟩ := get16_put16 p.endian L
  rw [frameOf, frameHeader, hputc, hputl]
  simp only [List.cons_append, List.nil_append, isFrame, hgetl, hlen, payloadMax_eq, Bool.and_eq_true, Bool.or_eq_true,
    beq_iff_eq, bne_iff_ne, decide_eq_true_eq]
  tauto

end Sys2Proof.Machine
end

section
/-! PROOF. The statements on transactions and commands. -/

namespace Sys2Proof.Machine

/-- Settles O16: the twelve rows of the table are computed. -/
theorem registerTableAsSpecified : Obligations.RegisterTableAsSpecified := by
  unfold Obligations.RegisterTableAsSpecified
  decide

/-- Settles O22: a read keeps what it reads, and a store stores the same again. -/
theorem transactionsButIssueIdempotent : Obligations.TransactionsButIssueIdempotent := by
  intro i s t hi hne h
  cases i with
  | rdr a => exact exec_rdr_idempotent h
  | wrr a v => exact exec_wrr_idempotent (fun ha => hne v (congrArg (Instr.wrr · v) ha)) h
  | rdb a => exact exec_rdb_idempotent h
  | wrb a b => exact exec_wrb_idempotent h
  | nop => cases hi
  | cksum => cases hi
  | verify => cases hi
  | encode => cases hi
  | decode => cases hi
  | badCmd _ _ => cases hi

/-- Settles O23: the one transaction that writes more than an input register or a cell is an issue, a WRR to
address 0. -/
theorem transactionsKeepReadOnlyRegisters : Obligations.TransactionsKeepReadOnlyRegisters := by
  intro i s t hi h
  obtain ⟨v, u, rfl, hu⟩ := transaction_cases hi h
  rcases hu with rfl | ⟨a, w, rfl, ha, -, rfl⟩ | ⟨a, w, r, rfl, hr, -, -, rfl⟩ | ⟨a, b, rfl, -, -, rfl⟩
  · exact ⟨fun _ _ => rfl, fun _ => ⟨rfl, rfl, rfl⟩⟩
  · refine ⟨fun r hr => ?_, fun hne => absurd (congrArg (Instr.wrr · w) (BitVec.eq_of_toNat_eq ha)) (hne w)⟩
    have hmem : r ∉ [Reg.cmd, .status] := by
      intro hmem
      rcases List.mem_pair.mp hmem with rfl | rfl <;> cases hr
    exact (frame_issue w s).1 r hmem
  · obtain ⟨hinput, hstatus, hcmd⟩ : r.isOutput = false ∧ .status ≠ r ∧ .cmd ≠ r := by
      rcases hr with rfl | rfl | rfl | rfl <;> exact ⟨rfl, nofun, nofun⟩
    have hkept {q : Reg} (hq : q ≠ r) : (s.writeReg r w).regs.get q = s.regs.get q := RegFile.get_set_ne s.regs _ hq
    refine ⟨fun q hq => hkept ?_, fun _ => ⟨hkept hstatus, hkept hcmd, rfl⟩⟩
    rintro rfl
    exact absurd (hinput.symm.trans hq) Bool.false_ne_true
  · exact ⟨fun _ _ => rfl, fun _ => ⟨rfl, rfl, rfl⟩⟩

/-- Settles O32: only VERIFY's completion sets VALID, to whether the checksum it stored is 0. -/
theorem validOnlyByVerify : Obligations.ValidOnlyByVerify := by
  intro i s t hi h
  by_cases hverify : i = .verify
  · subst hverify
    rw [exec_verify_valid h]
    exact (and_iff_right rfl).symm
  · obtain ⟨c, f, u, rfl, -, -, -, -, -, hvalid, -⟩ := command_cases hi h
    rw [valid_complete]
    exact ⟨fun hv => absurd (hvalid hv) hverify, fun hv => absurd hv.1 hverify⟩

/-- Settles O33: only DECODE's completion sets a format flag, and a completion with an error sets none. -/
theorem formatFlagsOnlyByDecode : Obligations.FormatFlagsOnlyByDecode := by
  intro i s t hi h hcase
  obtain ⟨c, f, u, rfl, herror, -, -, -, -, -, hflags, -⟩ := command_cases hi h
  rw [fKind_complete, fLen_complete, fOver_complete, fAck_complete]
  rcases hcase with hne | herr
  · simpa [not_or] using mt hflags hne
  · rw [err_complete, ne_eq, errValue_eq_zero] at herr
    rw [(herror herr).1]
    exact ⟨rfl, rfl, rfl, rfl⟩

/-- Settles O35: the two states pass the same error check, read the same payload, and write the same frame. -/
theorem encodeDependsOnOperandsOnly : Obligations.EncodeDependsOnOperandsOnly := by
  intro s s' hkind hseq hplen hcells
  have hk : opKind s' = opKind s := by rw [opKind_eq, opKind_eq, hkind]
  have hq : opSeq s' = opSeq s := by rw [opSeq_eq, opSeq_eq, hseq]
  have hpayload := payloadBytes_congr hplen hcells
  have herror : encodeError Config.params (opKind s') s'.regs.inPlen.toNat =
      encodeError Config.params (opKind s) s.regs.inPlen.toNat := by rw [hk, hplen]
  simp only [exec_encode]
  rcases encodeIn_cases Config.params s with ⟨hne, he⟩ | ⟨hnone, hP, he⟩ | ⟨P, hnone, hP, he⟩
  · refine .inr ⟨_, _, he, encodeIn_of_error herror hne, rfl, fun h0 => ?_⟩
    rw [err_complete, errValue_eq_zero] at h0
    exact absurd h0 hne
  · exact .inl ⟨he, encodeIn_of_unwritten (herror.trans hnone) (hpayload.trans hP)⟩
  · exact .inr ⟨_, _, he, encodeIn_of_payloadBytes (herror.trans hnone) (hpayload.trans hP), rfl,
      fun _ => writeFrame_congr .big P hk hq hplen⟩

/-- Settles O36: the cells hold the frame of the operands that passed ENCODE's checks. -/
theorem encodedFrameIsInFormat : Obligations.EncodedFrameIsInFormat := by
  intro s t h h0
  obtain ⟨P, hflen, -, hheld⟩ := encodeIn_holds_frame h h0
  obtain ⟨hle, htag, hack, -, hflen', -⟩ := encodeIn_writes h h0
  exact ⟨_, (frameOf_length ..).trans hflen.symm, hheld, isFrame_frameOf _ (by omega) hle htag hack⟩

end Sys2Proof.Machine
end

section
/-! SUPPORT. The step by its next action: what each event at the head of the inputs makes of it, what a faulted state
does, and that a command whose turn it is completes or is marked (60_exceptions.md R190, R197, R204). -/

namespace Sys2Proof.Machine

/-! ### One rule per action -/

section

variable {s : State} {r : Fault} {i : Instr}

theorem step_of_stopped (h : nextAction s = .stopped r) : step s = .fault r := by rw [step, h]
theorem step_of_reset (h : nextAction s = .reset) : step s = .next (applyReset (consumeInput s)) := by rw [step, h]
theorem step_of_idle (h : nextAction s = .idle) : step s = .next (consumeInput s) := by rw [step, h]
theorem step_of_run (h : nextAction s = .run i) : step s = settle (consumeInput s) (exec i (consumeInput s)) := by
  rw [step, h]

end

theorem consumeInput_of_cons {s : State} {e : Event} {rest : List Event} (h : s.inputs = e :: rest) :
    consumeInput s = { s with inputs := rest } := by
  rw [consumeInput, h, List.tail_cons]

theorem consumeInput_of_nil {s : State} (h : s.inputs = []) : consumeInput s = s := by
  rw [consumeInput, h, List.tail_nil, ← h]

/-! ### The next action of a state without a fault -/

section

variable {s : State} (hf : s.fault = none)
include hf

theorem nextAction_of_request {w : Request} {rest : List Event} (h : s.inputs = .request w :: rest) :
    nextAction s = .run (decodeRequest w) := by
  rw [nextAction_request h, unlessFaulted_of_none hf]

/-- It is the engine's turn when the host drives nothing more or the engine comes first (notes/assumptions/2.md). -/
theorem nextAction_of_engine_turn (h : s.inputs = [] ∨ s.inputs.head? = some .engine) :
    nextAction s = engineAction s := by
  rcases h with hnil | hengine
  · rw [nextAction_nil hnil, unlessFaulted_of_none hf]
  · obtain ⟨rest, hin⟩ := List.head?_eq_some_iff.mp hengine
    rw [nextAction_engine hin, unlessFaulted_of_none hf]

theorem nextAction_of_pending (h : s.inputs = [] ∨ s.inputs.head? = some .engine) (hp : s.pending = true) :
    nextAction s = .run (decodeCommand s.regs.cmd) := by
  rw [nextAction_of_engine_turn hf h, engineAction, if_pos hp]

theorem nextAction_of_not_pending (h : s.inputs = [] ∨ s.inputs.head? = some .engine) (hp : s.pending = false) :
    nextAction s = .idle := by
  rw [nextAction_of_engine_turn hf h, engineAction, hp]
  rfl

theorem nextAction_ne_stopped (r : Fault) : nextAction s ≠ .stopped r := by
  have hengine : engineAction s ≠ .stopped r := by
    rw [engineAction]
    split <;> nofun
  cases hin : s.inputs with
  | nil => rwa [nextAction_of_engine_turn hf (.inl hin)]
  | cons e rest =>
    cases e with
    | request w => rw [nextAction_of_request hf hin]; nofun
    | engine => rwa [nextAction_of_engine_turn hf (.inr (by rw [hin]; rfl))]
    | rst => rw [nextAction_rst hin]; nofun

/-- A step faults from a marked state only (60_exceptions.md R190, notes/assumptions/3.md). -/
theorem step_of_no_fault : ∃ t, step s = .next t := by
  cases ha : nextAction s with
  | stopped r => exact absurd ha (nextAction_ne_stopped hf r)
  | reset => exact ⟨_, step_of_reset ha⟩
  | idle => exact ⟨_, step_of_idle ha⟩
  | run i =>
    rw [step_of_run ha]
    cases hx : exec i (consumeInput s) with
    | next t => exact ⟨t, rfl⟩
    | fault r => exact ⟨_, rfl⟩
    | refused r => exact absurd hx (exec_ne_refused i _ r)

end

/-- A marked state is reset by `rst` and answers its fault on every other step. -/
theorem step_of_fault {s : State} {r : Fault} (hf : s.fault = some r) :
    (∃ rest, s.inputs = .rst :: rest ∧ step s = .next (applyReset (consumeInput s))) ∨
    ((∀ rest, s.inputs ≠ .rst :: rest) ∧ step s = .fault r) := by
  rcases nextAction_faulted hf with ⟨rest, hin, ha⟩ | ⟨hin, ha⟩
  · exact .inl ⟨rest, hin, step_of_reset ha⟩
  · exact .inr ⟨hin, step_of_stopped ha⟩

/-! ### Runs -/

theorem core_run_of_next {s t : State} (k : Nat) (h : step s = .next t) :
    Host.Core.run Sys2Proof.core (k + 1) s = Host.Core.run Sys2Proof.core k t := by
  rw [core_run_succ, h]

theorem core_run_of_fault {s : State} {r : Fault} (k : Nat) (h : step s = .fault r) :
    Host.Core.run Sys2Proof.core (k + 1) s = .fault r := by
  rw [core_run_succ, h]

/-- No number of steps clears a recorded fault, resets included (60_exceptions.md R190, 70_reset_and_hazards.md
R210). -/
theorem core_run_keeps_fault {r : Fault} (n : Nat) : ∀ {s : State}, s.fault = some r →
    Host.Core.run Sys2Proof.core n s = .fault r ∨
      ∃ t, Host.Core.run Sys2Proof.core n s = .next t ∧ t.fault = some r := by
  induction n with
  | zero => exact fun hf => .inr ⟨_, core_run_zero _, hf⟩
  | succ n ih =>
    intro s hf
    rcases step_of_fault hf with ⟨rest, -, hstep⟩ | ⟨-, hstep⟩
    · rw [core_run_of_next n hstep]
      exact ih hf
    · exact .inl (core_run_of_fault n hstep)

/-- A marked state has only its resets to step through. -/
theorem core_run_ends_with_fault {r : Fault} (n : Nat) : ∀ {s : State}, s.fault = some r → s.inputs.length < n →
    Host.Core.run Sys2Proof.core n s = .fault r := by
  induction n with
  | zero => exact fun _ hlen => absurd hlen (Nat.not_lt_zero _)
  | succ n ih =>
    intro s hf hlen
    rcases step_of_fault hf with ⟨rest, hin, hstep⟩ | ⟨-, hstep⟩
    · rw [core_run_of_next n hstep]
      refine ih hf ?_
      rw [hin, List.length_cons] at hlen
      rw [applyReset_inputs, consumeInput_inputs, hin, List.tail_cons]
      omega
    · exact core_run_of_fault n hstep

/-! ### The turn of a pending command -/

/-- What runs keeps the recorded fault and the inputs. -/
theorem exec_keeps_fault_and_inputs {i : Instr} {s t : State} (h : exec i s = .next t) :
    t.fault = s.fault ∧ t.inputs = s.inputs := by
  cases hi : isTransaction i with
  | true =>
    obtain ⟨v, u, rfl, hu⟩ := transaction_cases hi h
    rcases hu with rfl | ⟨a, w, -, -, -, rfl⟩ | ⟨a, w, r, -, -, -, -, rfl⟩ | ⟨a, b, -, -, -, rfl⟩ <;> exact ⟨rfl, rfl⟩
  | false =>
    obtain ⟨c, f, u, rfl, -, -, hfault, hinputs, -⟩ := command_cases hi h
    exact ⟨hfault, hinputs⟩

/-- A command that answers completes: BUSY 0, DONE 1, and with an error every flag 0 (10_state.md R31, 60_exceptions.md
R182). -/
theorem command_completes {i : Instr} {s t : State} (hi : isTransaction i = false) (h : exec i s = .next t) :
    t.busy = false ∧ t.done = true ∧ t.pending = false ∧
    (t.err ≠ 0 → t.valid = false ∧ t.fKind = false ∧ t.fLen = false ∧ t.fOver = false ∧ t.fAck = false) := by
  obtain ⟨c, f, u, rfl, herror, -⟩ := command_cases hi h
  refine ⟨busy_complete c f u, done_complete c f u, rfl, fun herr => ?_⟩
  rw [err_complete, ne_eq, errValue_eq_zero] at herr
  rw [(herror herr).1, valid_complete, fKind_complete, fLen_complete, fOver_complete, fAck_complete]
  exact ⟨rfl, rfl, rfl, rfl, rfl⟩

/-- A command completes, or reads an UNWRITTEN cell (10_state.md R31, 60_exceptions.md R191). -/
theorem command_answers_or_faults {i : Instr} (s : State) (hi : isTransaction i = false) :
    exec i s = .fault .uninitRead ∨ ∃ t, exec i s = .next t := by
  rcases command_outcomes (s := s) hi with ⟨-, he⟩ | ⟨-, -, he⟩ | ⟨B, t, -, -, he, -⟩
  · exact .inr ⟨_, he⟩
  · exact .inl he
  · exact .inr ⟨t, he⟩

/-- The engine's step performs the pending command: it completes, or the run is marked UNINIT_READ
(70_reset_and_hazards.md R225). -/
theorem step_performs_pending {s : State} (hf : s.fault = none) (hp : s.pending = true)
    (hturn : s.inputs = [] ∨ s.inputs.head? = some .engine) :
    ∃ u, step s = .next u ∧ u.inputs = s.inputs.tail ∧
      (u.fault = some .uninitRead ∨ (u.fault = none ∧ u.pending = false ∧ u.busy = false ∧ u.done = true)) := by
  rw [step_of_run (nextAction_of_pending hf hturn hp)]
  have hcommand := isTransaction_decodeCommand s.regs.cmd
  rcases command_answers_or_faults (consumeInput s) hcommand with he | ⟨t, he⟩
  · rw [he]
    exact ⟨_, rfl, rfl, .inl rfl⟩
  · obtain ⟨hfault, hinputs⟩ := exec_keeps_fault_and_inputs he
    obtain ⟨hbusy, hdone, hpending, -⟩ := command_completes hcommand he
    rw [he]
    exact ⟨t, rfl, hinputs, .inr ⟨hfault.trans hf, hpending, hbusy, hdone⟩⟩

/-! ### Quiescence and placed words -/

theorem quiescent_iff (s : State) : s.quiescent = true ↔
    s.pending = false ∧ s.fault = none ∧ ∀ w, .request w ∉ s.inputs := by
  simp only [State.quiescent, Bool.and_eq_true, Bool.not_eq_true', Option.isNone_iff_eq_none, List.all_eq_true,
    and_assoc]
  refine and_congr_right fun _ => and_congr_right fun _ => ⟨fun h w hw => ?_, fun h e he => ?_⟩
  · cases h _ hw
  · cases e with
    | request w => exact absurd he (h w)
    | engine => rfl
    | rst => rfl

/-- The table's numbering by its two widths (notes/assumptions/14.md). -/
theorem decodeTableWord_eq_some {nbits w : Nat} {i : Instr} (h : decodeTableWord nbits w = some i) :
    (nbits ≤ 16 ∧ i = decodeCommand (BitVec.ofNat 16 w)) ∨ (16 < nbits ∧ i = decodeRequest (BitVec.ofNat 28 w)) := by
  rw [decodeTableWord, decodeWord] at h
  by_cases hbits : nbits ≤ 16
  · rw [if_pos hbits] at h
    by_cases hw : w < 2 ^ 16
    · rw [if_pos hw] at h
      exact .inl ⟨hbits, (Option.some.inj h).symm⟩
    · rw [if_neg hw] at h
      cases h
  · rw [if_neg hbits] at h
    by_cases hw : w < 2 ^ 28
    · rw [if_pos hw] at h
      exact .inr ⟨by omega, (Option.some.inj h).symm⟩
    · rw [if_neg hw] at h
      cases h

end Sys2Proof.Machine
end

section
/-! PROOF. The statements on the step: its actions, its faults, reset and rest. -/

namespace Sys2Proof.Machine

/-- Settles O39: the next action on a request is its decoded transaction. -/
theorem stepRunsHostRequest : Obligations.StepRunsHostRequest := by
  intro s w rest hf hin
  rw [step_of_run (nextAction_of_request hf hin), consumeInput_of_cons hin]
  cases exec (decodeRequest w) { s with inputs := rest } <;> rfl

/-- Settles O40: at the engine's turn the next action is the command in CMD, or none. -/
theorem stepPerformsPendingCommand : Obligations.StepPerformsPendingCommand := by
  intro s rest hf hin
  have hturn : s.inputs = [] ∨ s.inputs.head? = some .engine :=
    hin.symm.imp And.left fun h => by rw [h]; rfl
  have hconsumed : consumeInput s = { s with inputs := rest } := by
    rcases hin with hcons | ⟨hnil, rfl⟩
    · exact consumeInput_of_cons hcons
    · rw [consumeInput, hnil, List.tail_nil]
  refine ⟨fun hp => ?_, fun hp => ?_⟩
  · rw [step_of_run (nextAction_of_pending hf hturn hp), hconsumed]
    cases exec (decodeCommand s.regs.cmd) { s with inputs := rest } <;> rfl
  · rw [step_of_idle (nextAction_of_not_pending hf hturn hp), hconsumed]

/-- Settles O41: a placed command is pending with the engine first, a placed request is the first input. -/
theorem placedInstructionRunsNext : Obligations.PlacedInstructionRunsNext := by
  intro s nbits w i h
  refine ⟨consumeInput (s.withFetchWord nbits w), ?_⟩
  rcases decodeTableWord_eq_some h with ⟨hbits, rfl⟩ | ⟨hbits, rfl⟩
  · rw [State.withFetchWord, if_pos hbits]
    refine ⟨step_of_run ?_, rfl, rfl, rfl, rfl, fun hwide => by omega, fun _ => ⟨rfl, rfl⟩⟩
    exact nextAction_of_pending rfl (.inr rfl) rfl
  · rw [State.withFetchWord, if_neg (by omega)]
    refine ⟨step_of_run ?_, rfl, rfl, rfl, rfl, fun _ => ⟨rfl, rfl⟩, fun hnarrow => by omega⟩
    exact nextAction_of_request rfl rfl

/-- Settles O42: `rst` is the next action whatever the state, and the input it took is gone. -/
theorem resetInputResetsBlock : Obligations.ResetInputResetsBlock := by
  intro s rest hin
  rw [step_of_reset (nextAction_rst hin), consumeInput_of_cons hin]
  rfl

/-- Settles O44: a fault is recorded by the step it arises in, and a marked state steps through its resets only. -/
theorem modelFaultRecordedForGood : Obligations.ModelFaultRecordedForGood := by
  refine ⟨fun s i r ha hx => ?_, fun s r hf => ⟨fun hhead => ?_, fun n => core_run_keeps_fault n hf,
    fun n hlen => core_run_ends_with_fault n hf hlen⟩⟩
  · rw [step_of_run ha, hx]
    exact ⟨_, rfl, rfl, rfl, rfl, rfl⟩
  · rcases step_of_fault hf with ⟨rest, hin, -⟩ | ⟨-, hstep⟩
    · rw [hin] at hhead
      exact absurd rfl hhead
    · exact hstep

/-- Settles O45: without a fault a step answers a next state, with one it is reset or answers the fault. -/
theorem stepNeverRefuses : Obligations.StepNeverRefuses := by
  intro s
  cases hf : s.fault with
  | none => exact .inl (step_of_no_fault hf)
  | some r =>
    rcases step_of_fault hf with ⟨rest, -, hstep⟩ | ⟨-, hstep⟩
    · exact .inl ⟨_, hstep⟩
    · exact .inr ⟨r, rfl, hstep⟩

/-- Settles O46: the engine's turn with nothing pending, and no input to take. -/
theorem idleKeepsState : Obligations.IdleKeepsState := by
  intro s hf hp hin
  rw [step_of_idle (nextAction_of_not_pending hf (.inl hin) hp), consumeInput_of_nil hin]

/-- Settles O47: the inputs left are engine turns and resets, and neither gives the engine a command. -/
theorem quiescentRunStaysQuiescent : Obligations.QuiescentRunStaysQuiescent := by
  intro s hq
  obtain ⟨hp, hf, hhost⟩ := (quiescent_iff s).mp hq
  have hrest : ∀ w, .request w ∉ s.inputs.tail := fun w hw => hhost w (List.mem_of_mem_tail hw)
  have hidle : nextAction s = .idle → ∃ t, step s = .next t ∧ t.quiescent = true := fun ha =>
    ⟨_, step_of_idle ha, (quiescent_iff _).mpr ⟨hp, hf, hrest⟩⟩
  cases hin : s.inputs with
  | nil => exact hidle (nextAction_of_not_pending hf (.inl hin) hp)
  | cons e rest =>
    cases e with
    | request w => exact absurd (hin ▸ List.mem_cons_self) (hhost w)
    | engine => exact hidle (nextAction_of_not_pending hf (.inr (by rw [hin]; rfl)) hp)
    | rst => exact ⟨_, step_of_reset (nextAction_rst hin), (quiescent_iff _).mpr ⟨rfl, hf, hrest⟩⟩

end Sys2Proof.Machine
end

section
/-! SUPPORT. What one step can do to FBUF, to STATUS and to the recorded fault (10_state.md R31, R32, 42_host_access.md
R166, R171). -/

namespace Sys2Proof.Machine

/-! ### FBUF -/

/-- What runs leaves FBUF as it is, writes one cell (WRB), or writes the header cells (ENCODE without error). -/
theorem exec_fbuf_cases {i : Instr} {s t : State} (h : exec i s = .next t) :
    t.fbuf = s.fbuf ∨
    (∃ a b, i = .wrb a b ∧ a.toNat < 1006 ∧ t.fbuf = s.fbuf.write a.toNat b) ∨
    (i = .encode ∧ t.err = 0) := by
  cases hi : isTransaction i with
  | true =>
    obtain ⟨v, u, rfl, hu⟩ := transaction_cases hi h
    rcases hu with rfl | ⟨a, w, -, -, -, rfl⟩ | ⟨a, w, r, -, -, -, -, rfl⟩ | ⟨a, b, hwrb, -, ha, rfl⟩
    · exact .inl rfl
    · exact .inl rfl
    · exact .inl rfl
    · exact .inr (.inl ⟨a, b, hwrb, ha, rfl⟩)
  | false =>
    obtain ⟨c, f, u, rfl, -, -, -, -, -, -, -, hfbuf⟩ := command_cases hi h
    by_cases hframe : i = .encode ∧ c = .none
    · exact .inr (.inr ⟨hframe.1, by rw [err_complete, errValue_eq_zero]; exact hframe.2⟩)
    · exact .inl (hfbuf (not_and_or.mp hframe))

/-- An ENCODE without error makes the six header cells written (41_framing.md R134). -/
theorem exec_encode_writes_header {s t : State} (h : exec .encode s = .next t) (h0 : t.err = 0) {k : Nat}
    (hk : k < 6) : t.fbuf.read k ≠ none := by
  obtain ⟨-, -, -, hheader, -, -⟩ := encodeIn_writes h h0
  have hcell := hheader k (by rwa [frameHeader_length])
  rw [Nat.zero_add] at hcell
  rw [hcell, ne_eq, List.getElem?_eq_none_iff, frameHeader_length]
  omega

theorem exec_encode_keeps_cells {s t : State} (h : exec .encode s = .next t) (h0 : t.err = 0) {k : Nat}
    (hk : 6 ≤ k) : t.fbuf.read k = s.fbuf.read k := by
  obtain ⟨-, -, -, -, -, hcells⟩ := encodeIn_writes h h0
  exact hcells k (.inr hk)

theorem exec_wrb_writes {a : PortAddr} {b : Byte} {s t : State} (h : exec (.wrb a b) s = .next t)
    (ha : a.toNat < 1006) : t.fbuf.read a.toNat = some b := by
  have hb : s.busy = false := (transaction_allowed rfl h).resolve_right nofun
  rw [exec_wrb_inside hb ha] at h
  cases h
  exact Memory.read_write_same ..

theorem exec_keeps_written {i : Instr} {s t : State} (h : exec i s = .next t) {k : Nat}
    (hk : s.fbuf.read k ≠ none) : t.fbuf.read k ≠ none := by
  rcases exec_fbuf_cases h with hfbuf | ⟨a, b, -, -, hfbuf⟩ | ⟨rfl, h0⟩
  · rwa [hfbuf]
  · rw [hfbuf, Memory.read_write]
    split
    · nofun
    · exact hk
  · by_cases hheader : k < 6
    · exact exec_encode_writes_header h h0 hheader
    · rwa [exec_encode_keeps_cells h h0 (by omega)]

/-- A cell that becomes written is the one of a WRB or one of an ENCODE's header (42_host_access.md R166). -/
theorem exec_writes_cell {i : Instr} {s t : State} (h : exec i s = .next t) {k : Nat} (hs : s.fbuf.read k = none)
    (ht : t.fbuf.read k ≠ none) :
    (∃ a b, i = .wrb a b ∧ a.toNat = k ∧ k < 1006) ∨ (i = .encode ∧ t.err = 0 ∧ k < 6) := by
  rcases exec_fbuf_cases h with hfbuf | ⟨a, b, rfl, ha, hfbuf⟩ | ⟨rfl, h0⟩
  · rw [hfbuf] at ht
    exact absurd hs ht
  · rw [hfbuf, Memory.read_write] at ht
    split at ht
    case isTrue hka => exact .inl ⟨a, b, rfl, hka.symm, by omega⟩
    case isFalse => exact absurd hs ht
  · by_cases hheader : k < 6
    · exact .inr ⟨rfl, h0, hheader⟩
    · rw [exec_encode_keeps_cells h h0 (by omega)] at ht
      exact absurd hs ht

/-! ### STATUS -/

/-- A transaction that changes STATUS is a CMD write, which issues (10_state.md R31, 30_encoding.md R86). -/
theorem transaction_changes_status {i : Instr} {s t : State} (hi : isTransaction i = true) (h : exec i s = .next t)
    (hne : t.regs.status ≠ s.regs.status) :
    ∃ v, i = .wrr 0 v ∧ t.regs.status = 0x0001 ∧ t.regs.cmd = v ∧ t.pending = true := by
  obtain ⟨v, u, rfl, hu⟩ := transaction_cases hi h
  rcases hu with rfl | ⟨a, w, rfl, ha, -, rfl⟩ | ⟨a, w, r, -, hr, -, -, rfl⟩ | ⟨a, b, -, -, -, rfl⟩
  · exact absurd rfl hne
  · exact ⟨w, congrArg (Instr.wrr · w) (BitVec.eq_of_toNat_eq ha), rfl, rfl, rfl⟩
  · rcases hr with rfl | rfl | rfl | rfl <;> exact absurd rfl hne
  · exact absurd rfl hne

/-! ### The busy hazard -/

/-- The step that meets the busy hazard takes a request the host may not drive (42_host_access.md R171, R172). -/
theorem hazard_breaks_duty {s : State} {i : Instr} (ha : nextAction s = .run i)
    (hx : exec i (consumeInput s) = .fault .hazardBusyAccess) :
    ∃ w rest, s.inputs = .request w :: rest ∧ ¬ hostMay s w := by
  obtain ⟨-, ⟨w, rest, hin, rfl⟩ | ⟨-, rfl, -⟩⟩ := nextAction_run ha
  · obtain ⟨hb, hne⟩ := (transaction_hazard (isTransaction_decodeRequest w)).mp hx
    refine ⟨w, rest, hin, fun hmay => ?_⟩
    rcases hmay with hidle | hstatus
    · cases hidle.symm.trans hb
    · exact hne hstatus
  · exact absurd hx (command_ne_hazard (isTransaction_decodeCommand s.regs.cmd))

end Sys2Proof.Machine
end

section
/-! PROOF. The statements on what changes FBUF and STATUS, and on the host's duty. -/

namespace Sys2Proof.Machine

/-- Settles O50: a step that neither runs nor resets keeps FBUF, and what runs writes the cell of a WRB or the header of
an ENCODE. -/
theorem cellsWrittenExactlyByWrbAndEncode : Obligations.CellsWrittenExactlyByWrbAndEncode := by
  refine ⟨fun s t a b => exec_wrb_writes, fun s t h h0 k hk => exec_encode_writes_header h h0 hk,
    fun s t k h hreset hk => ?_, fun s t k h hs ht => ?_⟩
  · rcases step_cases h with ⟨ha, -⟩ | ⟨-, rfl⟩ | ⟨i, -, hexec⟩ | ⟨i, r, -, -, rfl⟩
    · exact absurd ha hreset
    · exact hk
    · exact exec_keeps_written hexec hk
    · exact hk
  · rcases step_cases h with ⟨-, rfl⟩ | ⟨-, rfl⟩ | ⟨i, ha, hexec⟩ | ⟨i, r, -, -, rfl⟩
    · exact absurd rfl ht
    · exact absurd hs ht
    · rcases exec_writes_cell hexec hs ht with ⟨a, b, rfl, hcell⟩ | ⟨rfl, hcell⟩
      · exact .inl ⟨a, b, ha, hcell⟩
      · exact .inr ⟨ha, hcell⟩
    · exact absurd hs ht

/-- Settles O51: of the four kinds of step, reset and what runs can change STATUS; a transaction changes it by issuing
and a command by completing. -/
theorem statusWrittenAtIssueCompletionReset : Obligations.StatusWrittenAtIssueCompletionReset := by
  intro s t h hne
  rcases step_cases h with ⟨ha, rfl⟩ | ⟨-, rfl⟩ | ⟨i, ha, hexec⟩ | ⟨i, r, -, -, rfl⟩
  · exact .inl ⟨ha, rfl⟩
  · exact absurd rfl hne
  · cases hi : isTransaction i with
    | true =>
      obtain ⟨v, rfl, hissued⟩ := transaction_changes_status hi hexec hne
      exact .inr (.inl ⟨v, ha, hissued⟩)
    | false => exact .inr (.inr ⟨i, ha, hi, command_completes hi hexec⟩)
  · exact absurd rfl hne

/-- Settles O52: only a step that records the hazard marks it, and that step's request breaks the duty. -/
theorem dutifulHostMeetsNoBusyHazard : Obligations.DutifulHostMeetsNoBusyHazard := by
  intro s t hf h hduty hmark
  have hkept {f : Option Fault} (hfault : f = s.fault) : f ≠ some .hazardBusyAccess := by
    rw [hfault, hf]
    nofun
  rcases step_cases h with ⟨-, rfl⟩ | ⟨-, rfl⟩ | ⟨i, -, hexec⟩ | ⟨i, r, ha, hx, rfl⟩
  · exact hkept rfl hmark
  · exact hkept rfl hmark
  · exact hkept (exec_keeps_fault_and_inputs hexec).1 hmark
  · obtain rfl : r = .hazardBusyAccess := Option.some.inj hmark
    obtain ⟨w, rest, hin, hforbidden⟩ := hazard_breaks_duty ha hx
    exact hforbidden (hduty w rest hin)

end Sys2Proof.Machine
end

section
/-! SUPPORT. Runs of the host's pseudo-instructions: one transaction of WRBUF, one poll, and a request that breaks the
host's duty, each as the step it makes (30_encoding.md R101, 42_host_access.md R170, R171). -/

namespace Sys2Proof.Machine

/-! ### WRBUF -/

theorem hostEvents_wrBuf_cons (i : Nat) (b : Byte) (B : List Byte) : hostEvents (wrBuf i (b :: B)) =
    .request (requestWord true true (BitVec.ofNat 10 i) (b.setWidth 16)) :: hostEvents (wrBuf (i + 1) B) := rfl

theorem step_wrb {s : State} {i : Nat} {b : Byte} {rest : List Event} (hf : s.fault = none) (hb : s.busy = false)
    (hi : i < 1006)
    (hin : s.inputs = .request (requestWord true true (BitVec.ofNat 10 i) (b.setWidth 16)) :: rest) :
    step s = .next { s with fbuf := s.fbuf.write i b, inputs := rest, rdata := none } := by
  have hdecode : decodeRequest (requestWord true true (BitVec.ofNat 10 i) (b.setWidth 16)) =
      .wrb (BitVec.ofNat 10 i) b := decode_encode (i := .wrb (BitVec.ofNat 10 i) b) rfl
  have hindex : (BitVec.ofNat 10 i).toNat = i := by
    rw [BitVec.toNat_ofNat]
    omega
  have hexec := exec_wrb_inside (s := { s with inputs := rest }) (b := b) hb (hindex.trans_lt hi)
  rw [step_of_run (nextAction_of_request hf hin), consumeInput_of_cons hin, hdecode, hexec, hindex]
  rfl

theorem core_run_wrBuf (rest : List Event) : ∀ (B : List Byte) (i : Nat) (s : State), s.fault = none → s.busy = false →
    i + B.length ≤ 1006 → s.inputs = hostEvents (wrBuf i B) ++ rest →
    ∃ t, Host.Core.run Sys2Proof.core B.length s = .next t ∧ t.fbuf = s.fbuf.writeRange i B ∧ t.regs = s.regs ∧
      t.pending = s.pending ∧ t.fault = none ∧ t.inputs = rest
  | [], i, s, hf, _, _, hin => ⟨s, core_run_zero s, rfl, rfl, rfl, hf, hin⟩
  | b :: B, i, s, hf, hb, hlen, hin => by
    rw [List.length_cons] at hlen
    rw [hostEvents_wrBuf_cons, List.cons_append] at hin
    rw [List.length_cons, core_run_of_next _ (step_wrb hf hb (by omega) hin)]
    exact core_run_wrBuf rest B (i + 1) _ hf hb (by omega) rfl

/-! ### Requests while BUSY = 1 -/

section

variable {s : State} {w : Request} {rest : List Event} (hinv : s.Inv) (hf : s.fault = none) (hp : s.pending = true)
  (hin : s.inputs = .request w :: rest)
include hinv hf hp hin

/-- A poll of a pending command answers 0x0001 (42_host_access.md R170). -/
theorem step_poll (hw : decodeRequest w = .rdr 1) :
    step s = .next { s with inputs := rest, rdata := some 0x0001 } := by
  have hb : s.busy = true := hinv.pending_eq_busy.symm.trans hp
  have hresponse : registerResponse 1 { s with inputs := rest } = 0x0001 :=
    registerResponse_status_of_busy (hinv.of_eq rfl rfl rfl) hb
  rw [step_of_run (nextAction_of_request hf hin), consumeInput_of_cons hin, hw, exec_rdr_of_allowed (.inr rfl),
    hresponse]
  rfl

/-- Another request than RDR STATUS is marked (42_host_access.md R171). -/
theorem step_breach (hw : decodeRequest w ≠ .rdr 1) :
    step s = .next (recordFault .hazardBusyAccess (consumeInput s)) := by
  have hb : (consumeInput s).busy = true := hinv.pending_eq_busy.symm.trans hp
  rw [step_of_run (nextAction_of_request hf hin), (transaction_hazard (isTransaction_decodeRequest w)).mpr ⟨hb, hw⟩]
  rfl

end

theorem decodeRequest_poll : decodeRequest 0x0010000 = .rdr 1 := by decide

/-- After `j` of `n` polls the block is as it was, with the last response 0x0001. -/
theorem core_run_polls (rest : List Event) : ∀ (n j : Nat) (s : State), j ≤ n → s.Inv → s.fault = none →
    s.pending = true → s.inputs = List.replicate n (.request 0x0010000) ++ rest →
    Host.Core.run Sys2Proof.core j s = .next
      { s with inputs := List.replicate (n - j) (.request 0x0010000) ++ rest,
               rdata := if j = 0 then s.rdata else some 0x0001 }
  | n, 0, s, _, _, _, _, hin => by
    rw [core_run_zero, Nat.sub_zero, ← hin]
    rfl
  | n + 1, j + 1, s, hj, hinv, hf, hp, hin => by
    rw [List.replicate_succ, List.cons_append] at hin
    have hrest := core_run_polls rest n j
      { s with inputs := List.replicate n (.request 0x0010000) ++ rest, rdata := some 0x0001 }
      (by omega) (hinv.of_eq rfl rfl rfl) hf hp rfl
    rw [Nat.add_sub_add_right]
    refine ((core_run_of_next j (step_poll hinv hf hp hin decodeRequest_poll)).trans hrest).trans ?_
    simp

/-! ### The wait for the engine's turn -/

/-- How the wait of the command pending in `s` ends, in `t`: at the engine's turn, with the host's breach marked, or
before an `rst` (70_reset_and_hazards.md R225, R212, 42_host_access.md R171). -/
def waitEnds (s t : State) : Prop :=
  (t.fault = none ∧ t.regs = s.regs ∧ t.fbuf = s.fbuf ∧ nextAction t = .run (decodeCommand s.regs.cmd) ∧
    ∃ u, step t = .next u ∧
      (u.fault = some .uninitRead ∨ (u.fault = none ∧ u.pending = false ∧ u.busy = false ∧ u.done = true))) ∨
  (t.fault = some .hazardBusyAccess ∧ ∃ w, .request w ∈ s.inputs ∧ decodeRequest w ≠ .rdr (regAddr .status)) ∨
  (.rst ∈ s.inputs ∧ t.fault = none ∧ nextAction t = .reset ∧ t.pending = true ∧
    ∃ u, step t = .next u ∧ u.pending = false ∧ u.done = false)

/-- The wait from after a poll is the wait from before it. -/
theorem waitEnds_of_poll {s t : State} {e : Event} {rest : List Event} {v : Option Half} (hin : s.inputs = e :: rest)
    (h : waitEnds { s with inputs := rest, rdata := v } t) : waitEnds s t := by
  have hmem {e' : Event} (he : e' ∈ rest) : e' ∈ s.inputs := hin ▸ List.mem_cons_of_mem e he
  exact h.imp_right (Or.imp (And.imp_right fun ⟨w, hw, hne⟩ => ⟨w, hmem hw, hne⟩) (And.imp_left hmem))

/-- At the engine's turn the wait is over (70_reset_and_hazards.md R225). -/
theorem waitEnds_at_turn {s : State} (hf : s.fault = none) (hp : s.pending = true)
    (hturn : s.inputs = [] ∨ s.inputs.head? = some .engine) : waitEnds s s := by
  obtain ⟨u, hstep, -, hperformed⟩ := step_performs_pending hf hp hturn
  exact .inl ⟨hf, rfl, rfl, nextAction_of_pending hf hturn hp, u, hstep, hperformed⟩

theorem done_applyReset (s : State) : (applyReset s).done = false :=
  show RegFile.reset.status.getLsbD 1 = false by decide

/-- An `rst` abandons the pending command (70_reset_and_hazards.md R212). -/
theorem waitEnds_at_rst {s : State} {rest : List Event} (hf : s.fault = none) (hp : s.pending = true)
    (hin : s.inputs = .rst :: rest) : waitEnds s s :=
  .inr (.inr ⟨hin ▸ List.mem_cons_self, hf, nextAction_rst hin, hp, _, step_of_reset (nextAction_rst hin), rfl,
    done_applyReset _⟩)

/-- By induction on the inputs: a poll takes one of them and leaves the command pending, and anything else at their head
ends the wait. -/
theorem wait_ends (es : List Event) : ∀ s : State, s.inputs = es → s.Inv → s.fault = none → s.pending = true →
    ∃ k t, k ≤ latency es ∧ Host.Core.run Sys2Proof.core k s = .next t ∧ waitEnds s t := by
  induction es with
  | nil => exact fun s hin _ hf hp => ⟨0, s, le_rfl, core_run_zero s, waitEnds_at_turn hf hp (.inl hin)⟩
  | cons e rest ih =>
    intro s hin hinv hf hp
    cases e with
    | engine => exact ⟨0, s, Nat.zero_le _, core_run_zero s, waitEnds_at_turn hf hp (.inr (by rw [hin]; rfl))⟩
    | rst => exact ⟨0, s, Nat.zero_le _, core_run_zero s, waitEnds_at_rst hf hp hin⟩
    | request w =>
      by_cases hw : decodeRequest w = .rdr 1
      · obtain ⟨k, t, hk, hrun, hends⟩ := ih { s with inputs := rest, rdata := some 0x0001 } rfl
          (hinv.of_eq rfl rfl rfl) hf hp
        exact ⟨k + 1, t, Nat.succ_le_succ hk, (core_run_of_next k (step_poll hinv hf hp hin hw)).trans hrun,
          waitEnds_of_poll hin hends⟩
      · exact ⟨1, _, Nat.succ_le_succ (Nat.zero_le _), core_run_of_next 0 (step_breach hinv hf hp hin hw),
          .inr (.inl ⟨rfl, w, hin ▸ List.mem_cons_self, hw⟩)⟩

end Sys2Proof.Machine
end

section
/-! PROOF. The statements on runs: WRBUF, polling and fairness. -/

namespace Sys2Proof.Machine

/-- Settles O53: the run writes the range byte by byte, and a range write is read cell by cell. -/
theorem wrbufPlacesBytes : Obligations.WrbufPlacesBytes := by
  intro B i s rest hf hb hlen hin
  obtain ⟨t, hrun, hfbuf, hkept⟩ := core_run_wrBuf rest B i s hf hb hlen hin
  refine ⟨t, hrun, fun k hk => ?_, fun j hj => ?_, hkept⟩
  · rw [hfbuf, Memory.read_writeRange, if_pos (by omega), Nat.add_sub_cancel_left]
  · rw [hfbuf, Memory.read_writeRange, if_neg (by omega)]

/-- Settles O54: the polls come one by one, and after the last the engine's step performs the command. -/
theorem pollingSeesBusyThenDone : Obligations.PollingSeesBusyThenDone := by
  intro n s rest hinv hf hp hin
  have hpolls := fun j (hj : j ≤ n) => core_run_polls rest n j s hj hinv hf hp hin
  refine ⟨hpolls, fun hturn => ?_⟩
  have hlast := hpolls n le_rfl
  rw [Nat.sub_self, List.replicate_zero, List.nil_append] at hlast
  obtain ⟨u, hstep, hinputs, hperformed⟩ := step_performs_pending
    (s := { s with inputs := rest, rdata := if n = 0 then s.rdata else some 0x0001 }) hf hp hturn
  exact ⟨_, u, hlast, hstep, hinputs, hperformed⟩

/-- Settles O55: the wait ends within the latency of the inputs. -/
theorem pendingCommandIsPerformed : Obligations.PendingCommandIsPerformed :=
  fun s hinv hf hp => wait_ends s.inputs s rfl hinv hf hp

end Sys2Proof.Machine
end
